-- ==== Sys2Proof/Word.lean ====
section
/-! DEFINITION. The byte, the 16-byte block and the access to one byte of a byte array (00_scope.md R5, notation). -/

namespace Sys2Proof

/-- A byte is 8 bits throughout (R5). -/
abbrev Byte := BitVec 8

/-- An array of exactly 16 bytes, byte 0 first: a counter (R80), a keystream block (R100), a cipher block (R5). -/
abbrev Block := Vector Byte 16

/-- A command word, 32 bits (R60). -/
abbrev CmdWord := BitVec 32

/-- `A[k]` of the spec's notation. Every use has `k` inside the array; outside it the answer is 0 and is never used. -/
def byteAt {n : Nat} (b : Vector Byte n) (k : Nat) : Byte := b[k]?.getD 0#8

/-- The block of 16 zero bytes. -/
def zeroBlock : Block := Vector.replicate 16 0#8

end Sys2Proof
end

