-- ==== Sys2Proof/Config.lean ====
section
/-! DEFINITION. The parameters the spec leaves OPEN (00_scope.md R6) and the free values (93_implementation_defined.md U1 to U8).
None of the opaque constants has a body: a proof holds for every value of them. -/

namespace Sys2Proof

/-- A key schedule. Opaque to the CORE (R165): no rule looks inside, so no definition of the model does. The image is
some finite description of it, the cipher's own. DESIGN CHOICE (log 4), safe: every finite schedule has such an image. -/
structure Schedule where
  image : List Byte
deriving DecidableEq, Repr, Inhabited

/-- The `direction` argument of key setup (R145); its values are the cipher's. DESIGN CHOICE (log 7), safe. -/
structure Direction where
  tag : Nat
deriving DecidableEq, Repr, Inhabited

/-- What a free value is drawn for (log 12 to 16). -/
inductive FreeSlot where
  | ks                    -- U3: KS after a transform of at least one byte
  | wc                    -- U4: WC after a transform
  | index                 -- U4: I after a transform
  | sched                 -- U5: SCHED once SCHED_V has gone to 0
  | cmdRead               -- U1: a host read of CMD
  | busyErr               -- U6: ERR in a STATUS read while BUSY = 1
  | busySchedV            -- U6: SCHED_V in a STATUS read while BUSY = 1
  | landed (p : Nat)      -- U8: whether byte p had been written when reset came
  | portPrefix            -- how many transactions the abandoned command had made when reset came
  | resetCtr | resetKs | resetN | resetSrc | resetDst | resetLen | resetKeyAddr | resetKeyLen  -- U2
  | resetSched | resetWc | resetIndex                                                          -- U4, U5
deriving DecidableEq, Repr

/-- `AW` less its lower bound (R6: AW >= 1). -/
opaque Config.awBeyondOne : Nat

/-- `AW`, the width of a data-memory address (R6), OPEN with AW >= 1 (log 3). -/
def Config.aw : Nat := Config.awBeyondOne + 1

/-- `LENW` less its lower bound (R6: LENW >= 5). -/
opaque Config.lenwBeyondFive : Nat

/-- `LENW`, the width of a byte count (R6), OPEN with LENW >= 5 (log 3). -/
def Config.lenw : Nat := Config.lenwBeyondFive + 5

/-- `VALID_KEYLENS` (R6, R166) of the machine that State.reset starts: any set of lengths, listed (log 6). -/
opaque Config.validKeyLens : List Nat

/-- `DIR_ENC` (R6, R145): one fixed opaque value. -/
opaque Config.dirEnc : Direction

/-- `SetupKey(dir, key, keyLength)` (R6, R161): a function of its three arguments (R163). -/
opaque Config.setupKey : Direction → List Byte → Nat → Schedule

/-- `EncryptBlock(S, in16)` (R6, R162): a function of its two arguments (R163). -/
opaque Config.encryptBlock : Schedule → Block → Block

/-- A free number of any width, one for each slot and draw. -/
opaque Config.freeBits : (slot : FreeSlot) → (draw width : Nat) → BitVec width

/-- A free block (the spec's `any16`), one for each slot and draw. -/
opaque Config.freeBlock : FreeSlot → Nat → Block

/-- A free schedule, one for each slot and draw. -/
opaque Config.freeSchedule : FreeSlot → Nat → Schedule

/-- A free yes or no, one for each slot and draw. -/
opaque Config.freeBool : FreeSlot → Nat → Bool

/-- A free count, one for each slot and draw. -/
opaque Config.freeCount : FreeSlot → Nat → Nat

end Sys2Proof
end

