-- ==== Sys2Proof/Syntax.lean ====
section
/-! DEFINITION. The six commands (30_encoding.md R63) and the fields of the command word (R61). -/

namespace Sys2Proof

/-- A command. None carries an operand in its word: the operands are fixed registers (R62, R71). -/
inductive Instr where
  | inc      -- R84
  | add      -- R85
  | gen      -- R101
  | xform    -- R116
  | ksetup   -- R141
  | encrypt  -- R142
deriving DecidableEq, Repr

/-- The two fields of `CMD32` (R61). -/
structure CmdFields where
  op  : BitVec 8    -- bits 7:0
  rsv : BitVec 24   -- bits 31:8
deriving DecidableEq, Repr

end Sys2Proof
end

