-- ==== Sys2Proof/Machine/State.lean ====
section
/-! DEFINITION. The state of one CORE, its data memory and its host's moves (10_state.md section 1, 20_memory.md R40),
the reasons a step can stop, and the state after reset (70_reset_and_hazards.md R211). -/

namespace Sys2Proof.Machine

/-- The five results a command can end with, `STATUS.ERR` (R180). -/
inductive ErrCode where
  | ok                 -- 0
  | invalidKeyLength   -- 1
  | illegalCommand     -- 2
  | noSchedule         -- 3
  | badBuffer          -- 4
deriving DecidableEq, Repr, Inhabited

/-- Why the machine stops. The CORE itself never stops: its errors are results (R180), after which it is idle. -/
inductive Fault where
  /-- Raised by a host load or store that reaches an address of 2^AW or beyond, which does not exist (R40). Safe: no claim
  can be proved of what such a host does next (log 18). -/
  | outsideMemory
deriving DecidableEq, Repr

/-- Why a step has no meaning. -/
inductive Refusal where
  /-- Raised by no arm of this model: every command has its meaning. Safe. -/
  | notModelled (mnemonic : String)
  /-- Raised by XFORM, KSETUP and ENCRYPT when a legal range they use holds an address the platform does not admit, and by a
  host load or store of such an address (R59, U12: "a model refuses it"). Safe (log 8). -/
  | notAdmitted
  /-- Raised by any host access but a STATUS read while `BUSY` = 1 (R24 rule 2, U9: refuse). Safe (log 17). -/
  | hostAccessWhileBusy
  /-- Raised by a host access to a register number outside 0 to 9 (R24 rule 3, U10: refuse). Safe. -/
  | noSuchRegister
  /-- Raised by a host write whose value has not the register's width (R24: each moves the whole register). Safe (log 18). -/
  | valueNotOfRegisterWidth
  /-- Raised by a host load or store that touches a buffer the command in flight uses (R215, U13: refuse). Safe (log 17). -/
  | bufferInUse
deriving DecidableEq, Repr

/-- A range of addresses: `size` bytes from `base` upward. -/
structure Region where
  base : Nat
  size : Nat
deriving DecidableEq, Repr

/-- Data memory (R41): the bytes that differ from what an unlisted address reads as, by rising address. -/
abbrev Memory := List Host.Cell

/-- A transaction on the cipher port (R160). -/
inductive PortEvent where
  | setup (dir : Direction) (key : List Byte) (keyLength : Nat)   -- BC.SETUP (R161)
  | enc (schedule : Schedule) (in16 : Block)                      -- BC.ENC (R162)
deriving DecidableEq, Repr

/-- A value that moves between the host and the CORE or its memory. -/
inductive HostValue where
  | bytes (b : Block)          -- a whole 16-byte register
  | number (n : Nat)           -- a whole numeric register
  | data (d : List Byte)       -- bytes of data memory, in address order
deriving DecidableEq, Repr

/-- A move of the host (R8, R24, R69, R210). -/
inductive HostMove where
  | write (r : Nat) (v : HostValue)         -- HostWrite(r, v)
  | read (r : Nat)                          -- HostRead(r)
  | store (addr : Nat) (d : List Byte)      -- the host stores bytes in data memory
  | load (addr n : Nat)                     -- the host loads bytes from data memory
  | reset                                   -- the reset input (R210)
  | wait                                    -- the host lets the CORE take its step
deriving DecidableEq, Repr

/-- The whole state. The first part is the spec's (10_state.md), then the platform's memory and the two parameters that
are held as plain data (R6: MemAdmit, VALID_KEYLENS; no step changes them), then the model's own records. -/
structure State where
  ctr      : Block                        -- register 0, Counter Block (R10)
  ks       : Block                        -- register 1, Keystream Buffer (R11)
  n        : BitVec 64                    -- register 2, amount of ADD (R15)
  src      : BitVec Config.aw             -- register 3 (R16)
  dst      : BitVec Config.aw             -- register 4 (R16)
  len      : BitVec Config.lenw           -- register 5 (R16)
  keyAddr  : BitVec Config.aw             -- register 6 (R17)
  keyLen   : BitVec Config.lenw           -- register 7 (R17)
  cmd      : CmdWord                      -- register 8, the latched command word (R18)
  busy     : Bool                         -- STATUS bit 0 (R19)
  schedV   : Bool                         -- STATUS bit 1 (R19)
  err      : ErrCode                      -- STATUS bits 7:4 (R19)
  sched    : Schedule                     -- hidden, Key Schedule (R12)
  wc       : Block                        -- hidden, working counter (R21)
  idx      : BitVec (Config.lenw - 4)     -- hidden, chunk index I (R22)
  mem      : Memory                       -- data memory (R41)
  unmapped : List Region                  -- the addresses MemAdmit does not admit (R59)
  keyLens  : List Nat                     -- VALID_KEYLENS, the key lengths the cipher supports (R6, R166)
  port     : List PortEvent               -- the port transactions made so far, oldest first (R168)
  host     : List HostMove                -- the host's moves not yet made, next first
  reads    : List HostValue               -- what the host's reads have returned, oldest first
  draws    : Nat                          -- how many free values have been drawn
deriving DecidableEq, Repr

/-- The machine right after power-on reset (R211). The spec gives BUSY, SCHED_V, ERR and "no command pending"; the zeros of
the data and hidden registers are the model's DESIGN CHOICE (log 9, unsafe), memory lists nothing (log 11), the platform admits
every address (log 8), VALID_KEYLENS is any set (log 6) and the host has no moves (log 2). -/
def State.reset : State where
  ctr      := zeroBlock
  ks       := zeroBlock
  n        := 0#64
  src      := 0#Config.aw
  dst      := 0#Config.aw
  len      := 0#Config.lenw
  keyAddr  := 0#Config.aw
  keyLen   := 0#Config.lenw
  cmd      := 0#32
  busy     := false
  schedV   := false
  err      := .ok
  sched    := ⟨[]⟩
  wc       := zeroBlock
  idx      := 0#(Config.lenw - 4)
  mem      := []
  unmapped := []
  keyLens  := Config.validKeyLens
  port     := []
  host     := []
  reads    := []
  draws    := 0

end Sys2Proof.Machine
end

