-- ==== Sys2Proof/Machine/Operands.lean ====
section
/-! DEFINITION. The operand ranges of the commands and their legality (20_memory.md R45, R49, R56, R58, R59). -/

namespace Sys2Proof.Machine

/-- The two regions share an address. -/
def Region.meets (a b : Region) : Bool :=
  decide (0 < a.size ∧ 0 < b.size ∧ a.base < b.base + b.size ∧ b.base < a.base + a.size)

/-- The address lies in the region. -/
def Region.holds (r : Region) (addr : Nat) : Bool := decide (r.base ≤ addr ∧ addr < r.base + r.size)

/-- `MemAdmit(addr)` (R59): the address lies in no region the platform leaves out. -/
def State.memAdmit (s : State) (addr : Nat) : Bool := s.unmapped.all fun r => !r.holds addr

/-- `KEYLEN in VALID_KEYLENS` for a length (R141, R166). -/
def State.validKeyLen (s : State) (k : Nat) : Bool := s.keyLens.contains k

/-- Every address of the region is admitted. -/
def State.admits (s : State) (r : Region) : Bool := s.unmapped.all fun u => !u.meets r

/-- The source range, `SRC` to `SRC + LEN - 1` (R49, R58). -/
def State.srcRange (s : State) : Region := ⟨s.src.toNat, s.len.toNat⟩

/-- The destination range, `DST` to `DST + LEN - 1` (R49, R58). -/
def State.dstRange (s : State) : Region := ⟨s.dst.toNat, s.len.toNat⟩

/-- The key range, `KEYADDR` to `KEYADDR + KEYLEN - 1` (R56). -/
def State.keyRange (s : State) : Region := ⟨s.keyAddr.toNat, s.keyLen.toNat⟩

/-- The ranges of data memory a command reads (R57). -/
def State.readRanges (s : State) (i : Instr) : List Region :=
  match i with
  | .inc | .add | .gen => []
  | .xform => [s.srcRange]
  | .ksetup => [s.keyRange]
  | .encrypt => [s.keyRange, s.srcRange]

/-- The ranges of data memory a command writes (R57). -/
def State.writeRanges (s : State) (i : Instr) : List Region :=
  match i with
  | .inc | .add | .gen | .ksetup => []
  | .xform | .encrypt => [s.dstRange]

/-- Buffer legality (R49), for addresses of `aw` bits. The sums are exact. -/
def legalBuffers (aw src dst len : Nat) : Bool :=
  decide (src + len ≤ 2 ^ aw) &&
  (decide (dst + len ≤ 2 ^ aw) &&
  decide (len = 0 ∨ src = dst ∨ src + len ≤ dst ∨ dst + len ≤ src))

/-- The key range does not run past the top of the address space (R56). -/
def legalKeyRange (aw keyAddr keyLen : Nat) : Bool := decide (keyAddr + keyLen ≤ 2 ^ aw)

/-- The command's buffers are legal. -/
def State.buffersLegal (s : State) : Bool :=
  legalBuffers Config.aw s.src.toNat s.dst.toNat s.len.toNat

/-- The platform admits source and destination. -/
def State.buffersAdmitted (s : State) : Bool := s.admits s.srcRange && s.admits s.dstRange

/-- The platform admits the key range. -/
def State.keyAdmitted (s : State) : Bool := s.admits s.keyRange

/-- The first error of XFORM's checks (R116, R186): NoSchedule, then BadBuffer. -/
def State.xformError (s : State) : Option ErrCode :=
  if s.schedV then if s.buffersLegal then none else some .badBuffer
  else some .noSchedule

/-- The first error of `KSETUP_BODY` (R141, R186): InvalidKeyLength, then BadBuffer for the key range. -/
def State.keyError (s : State) : Option ErrCode :=
  if s.validKeyLen s.keyLen.toNat then
    if legalKeyRange Config.aw s.keyAddr.toNat s.keyLen.toNat then none else some .badBuffer
  else some .invalidKeyLength

/-- ENCRYPT's check after key setup (R142): BadBuffer for source and destination. -/
def State.bufferError (s : State) : Option ErrCode :=
  if s.buffersLegal then none else some .badBuffer

end Sys2Proof.Machine
end

