-- ==== Sys2Proof/Machine/Ops.lean ====
section
/-! DEFINITION. The named operations: bytes of data memory (20_memory.md R41, R42), the end of a command and the raising of an
error (60_exceptions.md R187, R189), giving up a schedule (43_wrapper.md R144), and reset (70_reset_and_hazards.md R210). -/

namespace Sys2Proof.Machine

/-- What an address that memory does not list reads as. The spec gives no power-on content: DESIGN CHOICE (log 11), unsafe. -/
def Memory.unlisted : Byte := 0#8

/-- `MemRead(addr, 1)` (R42). -/
def Memory.read : Memory → Nat → Byte
  | [], _ => Memory.unlisted
  | c :: m, a => if c.1 = a then c.2 else Memory.read m a

/-- Put a cell at its place by rising address. -/
def Memory.insert (a : Nat) (b : Byte) : Memory → Memory
  | [] => [(a, b)]
  | c :: m => if a < c.1 then (a, b) :: c :: m else c :: Memory.insert a b m

/-- Take an address out of the list. -/
def Memory.erase (m : Memory) (a : Nat) : Memory := m.filter fun c => c.1 != a

/-- `MemWrite(addr, 1, b)` (R42), keeping the canonical form. -/
def Memory.write (m : Memory) (a : Nat) (b : Byte) : Memory :=
  if b = Memory.unlisted then m.erase a else (m.erase a).insert a b

/-- The canonical form: addresses strictly rising, no entry equal to what an unlisted address reads as. -/
abbrev Memory.wf (m : Memory) : Prop :=
  m.Pairwise (fun c d => c.1 < d.1) ∧ ∀ c ∈ m, c.2 ≠ Memory.unlisted

/-- No listed address reaches `bound`. -/
abbrev Memory.below (m : Memory) (bound : Nat) : Prop := ∀ c ∈ m, c.1 < bound

/-- `MemRead(addr, n)`: the bytes in address order (R42). -/
def Memory.readBytes (m : Memory) (a n : Nat) : List Byte := (List.range n).map fun k => m.read (a + k)

/-- `MemWrite(addr, n, d)`: the bytes in address order (R42). -/
def Memory.writeBytes : Memory → Nat → List Byte → Memory
  | m, _, [] => m
  | m, a, b :: d => Memory.writeBytes (m.write a b) (a + 1) d

/-- A command that completes with success: ERR is 0 and BUSY returns to 0 (R20, R68). -/
def State.complete (s : State) : State := { s with err := .ok, busy := false }

/-- `raise E` (R187): the command stops here, ERR takes the code, BUSY returns to 0, nothing is saved and control goes nowhere.
There is no return from an error (R189): the CORE is idle and waits for the next CMD write. -/
def State.raise (s : State) (e : ErrCode) : State := { s with err := e, busy := false }

/-- `SCHED_V <- 0`: the schedule is given up (R141, R142, R144) and the content of SCHED is unspecified (R12, U5), here a free
value (log 13). -/
def State.dropSchedule (s : State) : State :=
  { s with schedV := false, sched := Config.freeSchedule .sched s.draws, draws := s.draws + 1 }

/-- A command whose ranges the platform does not all admit has no meaning (R59, U12). -/
def admittedOr (admitted : Bool) (t : State) : Host.Outcome State Fault Refusal :=
  if admitted then .next t else .refused .notAdmitted

/-- The registers that reset leaves unspecified (R211). -/
structure DataRegs where
  ctr     : Block
  ks      : Block
  n       : BitVec 64
  src     : BitVec Config.aw
  dst     : BitVec Config.aw
  len     : BitVec Config.lenw
  keyAddr : BitVec Config.aw
  keyLen  : BitVec Config.lenw
  sched   : Schedule
  wc      : Block
  idx     : BitVec (Config.lenw - 4)
deriving DecidableEq, Repr

/-- What a reset after power-on leaves in them: any value, drawn once at that reset (R25, U2; log 10). -/
def freeDataRegs (draw : Nat) : DataRegs where
  ctr     := Config.freeBlock .resetCtr draw
  ks      := Config.freeBlock .resetKs draw
  n       := Config.freeBits .resetN draw 64
  src     := Config.freeBits .resetSrc draw Config.aw
  dst     := Config.freeBits .resetDst draw Config.aw
  len     := Config.freeBits .resetLen draw Config.lenw
  keyAddr := Config.freeBits .resetKeyAddr draw Config.aw
  keyLen  := Config.freeBits .resetKeyLen draw Config.lenw
  sched   := Config.freeSchedule .resetSched draw
  wc      := Config.freeBlock .resetWc draw
  idx     := Config.freeBits .resetIndex draw (Config.lenw - 4)

/-- Reset (R210, R211): idle, STATUS = 0, no command pending, the data registers as drawn. Data memory is not touched and no
port transaction is made (R210). -/
def State.resetCore (s : State) (d : DataRegs) : State :=
  { s with
    ctr := d.ctr, ks := d.ks, n := d.n, src := d.src, dst := d.dst, len := d.len, keyAddr := d.keyAddr, keyLen := d.keyLen,
    sched := d.sched, wc := d.wc, idx := d.idx, cmd := 0#32, busy := false, schedV := false, err := .ok }

/-- The reset input, asserted at `s` (R210): one draw for the registers it leaves unspecified. -/
def State.assertReset (s : State) : State :=
  { s.resetCore (freeDataRegs s.draws) with draws := s.draws + 1 }

end Sys2Proof.Machine
end

