-- ==== Sys2Proof/Machine/Keystream.lean ====
section
/-! DEFINITION. The keystream generator and GEN (41_keystream.md R100 to R103). -/

namespace Sys2Proof.Machine

/-- GEN's effect once a schedule is held (R101): one `BC.ENC` on CTR, its answer in KS; CTR is not advanced (R102). -/
def State.generated (s : State) : State :=
  { s with ks := Config.encryptBlock s.sched s.ctr, port := s.port ++ [.enc s.sched s.ctr] }

/-- GEN (R101). -/
def execGen (s : State) : Host.Outcome State Fault Refusal :=
  .next (if s.schedV then s.generated.complete else s.raise .noSchedule)

end Sys2Proof.Machine
end

