-- ==== Sys2Proof/Machine/Bytes.lean ====
section
/-! DEFINITION. Big-endian numbers of byte arrays: `be64`, `bytes64`, `val128`, `bytes128` (00_scope.md section 4; R80). -/

namespace Sys2Proof.Machine

/-- The number whose base-256 digits are the first `n` bytes, the first byte most significant. -/
def beNum (byte : Nat → Byte) : Nat → Nat
  | 0 => 0
  | n + 1 => beNum byte n * 256 + (byte n).toNat

/-- Byte `k` of the `n`-byte big-endian form of `v`: `(v div 256^(n-1-k)) mod 256`. -/
def beByte (n v k : Nat) : Byte := BitVec.ofNat 8 (v / 256 ^ (n - 1 - k))

/-- `be64(b)`. -/
def be64 (b : Vector Byte 8) : Nat := beNum (byteAt b) 8

/-- `bytes64(w)`. -/
def bytes64 (w : Nat) : Vector Byte 8 := Vector.ofFn fun k => beByte 8 w k.val

/-- `val128(c)` (R80). -/
def val128 (c : Block) : Nat := beNum (byteAt c) 16

/-- `bytes128(v)`. -/
def bytes128 (v : Nat) : Block := Vector.ofFn fun k => beByte 16 v k.val

/-- The high word's bytes `c[0..7]` (R80). -/
def highBytes (c : Block) : Vector Byte 8 := Vector.ofFn fun k => byteAt c k.val

/-- The low word's bytes `c[8..15]` (R80). -/
def lowBytes (c : Block) : Vector Byte 8 := Vector.ofFn fun k => byteAt c (8 + k.val)

end Sys2Proof.Machine
end

