-- ==== Sys2Proof/Machine/Counter.lean ====
section
/-! DEFINITION. The counter: `inc128`, `add128`, INC and ADD (40_counter.md R80 to R89). -/

namespace Sys2Proof.Machine

/-- The loop of `inc128` (R81) over bytes `k - 1` down to 0: from the last byte toward the first, stopping at the first byte that
does not carry. -/
def incFrom : Nat → Block → Block
  | 0, r => r
  | k + 1, r =>
    let b := byteAt r k + 1#8
    let r' := r.setIfInBounds k b
    if b = 0#8 then incFrom k r' else r'

/-- `inc128(c)`, the `increment_unit` (R81). -/
def inc128 (c : Block) : Block := incFrom 16 c

/-- `n` applications of `inc128` (R83). -/
def incTimes : Nat → Block → Block
  | 0, c => c
  | n + 1, c => inc128 (incTimes n c)

/-- `add128(c, n)`, the `add_with_carry` unit, in the word form of R82; `n` is below 2^64. -/
def add128 (c : Block) (n : Nat) : Block :=
  let h  := be64 (highBytes c)
  let l  := be64 (lowBytes c)
  let s  := l + n
  let l' := s % 2 ^ 64
  let cy := s / 2 ^ 64
  let h' := (h + cy) % 2 ^ 64
  bytes64 h' ++ bytes64 l'

/-- INC (R84). -/
def execInc (s : State) : Host.Outcome State Fault Refusal :=
  .next { s with ctr := inc128 s.ctr }.complete

/-- ADD (R85): the amount is the whole of N, unsigned (R62). -/
def execAdd (s : State) : Host.Outcome State Fault Refusal :=
  .next { s with ctr := add128 s.ctr s.n.toNat }.complete

end Sys2Proof.Machine
end

