-- ==== Sys2Proof/Machine/Transform.lean ====
section
/-! DEFINITION. The stream transform: loop controller, byte selector and XFORM (42_transform.md R110 to R128). -/

namespace Sys2Proof.Machine

/-- What the loop of `XFORM_BODY` (R116) works on: memory, KS, WC, I and the port. -/
structure Xfer where
  mem  : Memory
  ks   : Block
  wc   : Block
  idx  : Nat
  port : List PortEvent
deriving DecidableEq, Repr

/-- Xor the first `n` bytes at `src` with the first `n` keystream bytes, into `dst`: byte by byte, ascending, each read before
its write (R51 a, R116, R126; the order is log 19). -/
def xorBytes (ks : Block) (src dst : Nat) : Nat → Memory → Memory
  | 0, m => m
  | n + 1, m =>
    let m' := xorBytes ks src dst n m
    m'.write (dst + n) (m'.read (src + n) ^^^ byteAt ks n)

/-- One full chunk (R112): generate, advance, then xor 16 bytes. -/
def Xfer.chunk (enc : Schedule → Block → Block) (sched : Schedule) (src dst : Nat) (x : Xfer) : Xfer :=
  let ks := enc sched x.wc
  { mem  := xorBytes ks (src + 16 * x.idx) (dst + 16 * x.idx) 16 x.mem
    ks   := ks
    wc   := inc128 x.wc
    idx  := x.idx + 1
    port := x.port ++ [.enc sched x.wc] }

/-- `q` full chunks in ascending order (R112, R113). -/
def Xfer.chunks (enc : Schedule → Block → Block) (sched : Schedule) (src dst : Nat) : Nat → Xfer → Xfer
  | 0, x => x
  | q + 1, x => (Xfer.chunks enc sched src dst q x).chunk enc sched src dst

/-- The tail of `r` bytes (R114, R115): one more generation, no increment, only the first `r` keystream bytes. -/
def Xfer.tail (enc : Schedule → Block → Block) (sched : Schedule) (src dst r : Nat) (x : Xfer) : Xfer :=
  if r = 0 then x
  else
    let ks := enc sched x.wc
    { x with
      mem  := xorBytes ks (src + 16 * x.idx) (dst + 16 * x.idx) r x.mem
      ks   := ks
      port := x.port ++ [.enc sched x.wc] }

/-- The loop and the tail of `XFORM_BODY` (R116), after the copy of CTR into WC (R111). -/
def Xfer.body (enc : Schedule → Block → Block) (sched : Schedule) (src dst len : Nat) (x : Xfer) : Xfer :=
  (x.chunks enc sched src dst (len / 16)).tail enc sched src dst (len % 16)

/-- The start of the body (R111): WC is a copy of CTR, I is 0. -/
def State.xferStart (s : State) : Xfer where
  mem  := s.mem
  ks   := s.ks
  wc   := s.ctr
  idx  := 0
  port := s.port

/-- The body run on the registers of `s` with the schedule given. -/
def State.xferEnd (s : State) (sched : Schedule) : Xfer :=
  s.xferStart.body Config.encryptBlock sched s.src.toNat s.dst.toNat s.len.toNat

/-- `XFORM_BODY` (R116): memory and port as the body leaves them; KS is `any16` when LEN is not 0 and unchanged when it is
(R125, U3); WC and I are dead (R14, U4). The free values are log 12. -/
def State.transformed (s : State) (sched : Schedule) : State :=
  { s with
    mem   := (s.xferEnd sched).mem
    port  := (s.xferEnd sched).port
    ks    := if s.len.toNat = 0 then s.ks else Config.freeBlock .ks s.draws
    wc    := Config.freeBlock .wc s.draws
    idx   := Config.freeBits .index s.draws (Config.lenw - 4)
    draws := s.draws + 1 }

/-- XFORM once its ranges are known to be admitted or an error comes first. -/
def State.xformResult (s : State) : State :=
  match s.xformError with
  | some e => s.raise e
  | none => (s.transformed s.sched).complete

/-- XFORM (R116). -/
def execXform (s : State) : Host.Outcome State Fault Refusal :=
  admittedOr (s.buffersAdmitted || s.xformError.isSome) s.xformResult

end Sys2Proof.Machine
end

