-- ==== Sys2Proof/Machine/Wrapper.lean ====
section
/-! DEFINITION. The invocation wrapper: KSETUP and ENCRYPT (43_wrapper.md R140 to R147). -/

namespace Sys2Proof.Machine

/-- The key as it stands in data memory, key byte 0 first (R56). -/
def State.keyBytes (s : State) : List Byte := s.mem.readBytes s.keyAddr.toNat s.keyLen.toNat

/-- What `BC.SETUP` answers for that key (R161), always asked with `DIR_ENC` (R145). -/
def State.derivedSchedule (s : State) : Schedule := Config.setupKey Config.dirEnc s.keyBytes s.keyLen.toNat

/-- The one `BC.SETUP` transaction of key setup (R161, R168). -/
def State.setupEvent (s : State) : PortEvent := .setup Config.dirEnc s.keyBytes s.keyLen.toNat

/-- KSETUP without the platform's say (R141): on either error the old schedule is lost; on success the new one is held. -/
def State.ksetupResult (s : State) : State :=
  match s.keyError with
  | some e => s.dropSchedule.raise e
  | none => { s with sched := s.derivedSchedule, schedV := true, port := s.port ++ [s.setupEvent] }.complete

/-- KSETUP (R141). -/
def execKsetup (s : State) : Host.Outcome State Fault Refusal :=
  admittedOr (s.keyAdmitted || s.keyError.isSome) s.ksetupResult

/-- ENCRYPT without the platform's say (R142): key setup, the buffer check, the transform with the schedule just derived, and
the schedule discarded on every way out (R144). A BadBuffer for source and destination comes after the `BC.SETUP` (R168). -/
def State.encryptResult (s : State) : State :=
  match s.keyError with
  | some e => s.dropSchedule.raise e
  | none =>
    let t := { s with port := s.port ++ [s.setupEvent] }
    match s.bufferError with
    | some e => t.dropSchedule.raise e
    | none => (t.transformed s.derivedSchedule).dropSchedule.complete

/-- ENCRYPT (R142). The key range counts when the key is read, the buffers when the transform runs (R56, R59; log 25). -/
def execEncrypt (s : State) : Host.Outcome State Fault Refusal :=
  admittedOr ((s.keyAdmitted && (s.buffersAdmitted || s.bufferError.isSome)) || s.keyError.isSome) s.encryptResult

end Sys2Proof.Machine
end

