-- ==== Sys2Proof/Machine/Dispatch.lean ====
section
/-! DEFINITION. One arm per command (30_encoding.md R63). -/

namespace Sys2Proof.Machine

def exec (i : Instr) (s : State) : Host.Outcome State Fault Refusal :=
  match i with
  | .inc => Sys2Proof.Machine.execInc s
  | .add => Sys2Proof.Machine.execAdd s
  | .gen => Sys2Proof.Machine.execGen s
  | .xform => Sys2Proof.Machine.execXform s
  | .ksetup => Sys2Proof.Machine.execKsetup s
  | .encrypt => Sys2Proof.Machine.execEncrypt s

end Sys2Proof.Machine
end

