-- ==== Sys2Proof/WellFormed.lean ====
section
/-! DEFINITION. Which fields of `CMD32` make a legal command word (30_encoding.md R64, R65). -/

namespace Sys2Proof

/-- `rsv` must be 0 whatever `op` is (R65). -/
def CmdFields.reservedZero (f : CmdFields) : Bool := f.rsv == 0#24

/-- Opcode 0x00 and opcodes 0x07 to 0xFF are reserved (R64). -/
def CmdFields.opcodeAssigned (f : CmdFields) : Bool := decide (1 ≤ f.op.toNat ∧ f.op.toNat ≤ 6)

/-- The fields form one of the six command words (R63 to R66). -/
def CmdFields.wf (f : CmdFields) : Bool := f.reservedZero && f.opcodeAssigned

end Sys2Proof
end

