-- ==== Sys2Proof/Decode.lean ====
section
/-! DEFINITION. The decoder of command words, total, rejecting by name, and the encoder (30_encoding.md R60 to R67). -/

namespace Sys2Proof

/-- Why a word is no command (R182). -/
inductive DecodeError where
  | reservedBits      -- bits 31:8 are not all zero (R65)
  | reservedOpcode    -- op is 0x00 or 0x07 to 0xFF (R64)
deriving DecidableEq, Repr

/-- What the decoder answers. -/
inductive Decoded where
  | command (i : Instr)
  | illegal (why : DecodeError)
deriving DecidableEq, Repr

/-- Cut a word into its fields (R61). -/
def fieldsOf (w : CmdWord) : CmdFields where
  op  := w.extractLsb' 0 8
  rsv := w.extractLsb' 8 24

/-- The opcode map (R63). -/
def commandOf (op : BitVec 8) : Decoded :=
  match op.toNat with
  | 1 => .command .inc
  | 2 => .command .add
  | 3 => .command .gen
  | 4 => .command .xform
  | 5 => .command .ksetup
  | 6 => .command .encrypt
  | _ => .illegal .reservedOpcode

/-- Decode a command word. The reserved bits come first, so a word with them set is illegal whatever its `op` (R65). -/
def decode (w : CmdWord) : Decoded :=
  let f := fieldsOf w
  if f.rsv = 0#24 then commandOf f.op else .illegal .reservedBits

/-- The opcode of a command (R63). -/
def Instr.opcode : Instr → BitVec 8
  | .inc     => 0x01#8
  | .add     => 0x02#8
  | .gen     => 0x03#8
  | .xform   => 0x04#8
  | .ksetup  => 0x05#8
  | .encrypt => 0x06#8

/-- The fields of a command's word. -/
def Instr.fields (i : Instr) : CmdFields where
  op  := i.opcode
  rsv := 0#24

/-- A command is well formed when its word's fields are. No command has an operand that could be ill formed (R62). -/
def Instr.wf (i : Instr) : Bool := i.fields.wf

/-- The command word of a command (R61, R63): `rsv` in bits 31:8, `op` in bits 7:0. -/
def encode (i : Instr) : CmdWord := i.fields.rsv ++ i.fields.op

/-- The host's view of the decoder: the command in the `nbits` lowest bits of `w`. CMD32 is one 32-bit number, bit 0 least
significant (R61), which is how the table numbers it; a number that does not fit into 32 bits is no command word. -/
def decodeTableWord (nbits w : Nat) : Option Instr :=
  let v := w % 2 ^ nbits
  if v < 2 ^ 32 then
    match decode (BitVec.ofNat 32 v) with
    | .command i => some i
    | .illegal _ => none
  else none

end Sys2Proof
end

