-- ==== Sys2Proof/Machine/Flags.lean ====
section
/-! DEFINITION. The STATUS word and the result codes (10_state.md R19, 60_exceptions.md R180). There are no other flags (R23). -/

namespace Sys2Proof.Machine

/-- The code of a result (R180). -/
def ErrCode.code : ErrCode → BitVec 4
  | .ok               => 0#4
  | .invalidKeyLength => 1#4
  | .illegalCommand   => 2#4
  | .noSchedule       => 3#4
  | .badBuffer        => 4#4

/-- STATUS from its three fields: bit 0 BUSY, bit 1 SCHED_V, bits 3:2 zero, bits 7:4 ERR, bits 31:8 zero (R19). -/
def statusOf (busy schedV : Bool) (err : BitVec 4) : BitVec 32 :=
  (0#24) ++ err ++ (0#2) ++ BitVec.ofBool schedV ++ BitVec.ofBool busy

/-- STATUS as it reads while `BUSY` = 0 (R19). -/
def statusWord (s : State) : BitVec 32 := statusOf s.busy s.schedV s.err.code

/-- STATUS as a read returns it while `BUSY` = 1: ERR and SCHED_V are unspecified (R20, U6), here free (log 15). -/
def busyStatusWord (s : State) : BitVec 32 :=
  statusOf true (Config.freeBool .busySchedV s.draws) (Config.freeBits .busyErr s.draws 4)

end Sys2Proof.Machine
end

