-- ==== Sys2Proof/Machine/HostAccess.lean ====
section
/-! DEFINITION. What the host can do: HostRead, HostWrite (10_state.md R18, R20, R24), loads and stores of data memory
(30_encoding.md R69), while the CORE is idle and while it is busy (70_reset_and_hazards.md R214, R215). -/

namespace Sys2Proof.Machine

/-- The host registers (10_state.md section 1). -/
inductive Reg where
  | ctr | ks | n | src | dst | len | keyAddr | keyLen | cmd | status
deriving DecidableEq, Repr

/-- The number of a register (10_state.md section 1). -/
def Reg.number : Reg → Nat
  | .ctr => 0
  | .ks => 1
  | .n => 2
  | .src => 3
  | .dst => 4
  | .len => 5
  | .keyAddr => 6
  | .keyLen => 7
  | .cmd => 8
  | .status => 9

/-- The register of a number; none outside 0 to 9 (R24 rule 3). -/
def Reg.ofNumber : Nat → Option Reg
  | 0 => some .ctr
  | 1 => some .ks
  | 2 => some .n
  | 3 => some .src
  | 4 => some .dst
  | 5 => some .len
  | 6 => some .keyAddr
  | 7 => some .keyLen
  | 8 => some .cmd
  | 9 => some .status
  | _ => none

/-- A numeric register takes a number of its width; no other number can be written to it (R24; log 18). -/
def takeNumber (width x : Nat) (f : BitVec width → State) : Host.Outcome State Fault Refusal :=
  if x < 2 ^ width then .next (f (BitVec.ofNat width x)) else .refused .valueNotOfRegisterWidth

/-- Issue of a command (R68): the word is latched and BUSY is set. The operand registers need no copy: nothing changes them before
the command has run (log 20). -/
def State.issue (s : State) (w : CmdWord) : State := { s with cmd := w, busy := true }

/-- HostWrite to a register while `BUSY` = 0 (R24 rule 1): KS and STATUS ignore it, CMD issues, the others are replaced. -/
def writeReg (reg : Reg) (v : HostValue) (s : State) : Host.Outcome State Fault Refusal :=
  match reg, v with
  | .ctr, .bytes b => .next { s with ctr := b }
  | .ks, .bytes _ => .next s
  | .n, .number x => takeNumber 64 x fun y => { s with n := y }
  | .src, .number x => takeNumber Config.aw x fun y => { s with src := y }
  | .dst, .number x => takeNumber Config.aw x fun y => { s with dst := y }
  | .len, .number x => takeNumber Config.lenw x fun y => { s with len := y }
  | .keyAddr, .number x => takeNumber Config.aw x fun y => { s with keyAddr := y }
  | .keyLen, .number x => takeNumber Config.lenw x fun y => { s with keyLen := y }
  | .cmd, .number x => takeNumber 32 x fun y => s.issue y
  | .status, .number x => takeNumber 32 x fun _ => s
  | _, _ => .refused .valueNotOfRegisterWidth

/-- HostWrite(r, v) while `BUSY` = 0. -/
def hostWrite (r : Nat) (v : HostValue) (s : State) : Host.Outcome State Fault Refusal :=
  match Reg.ofNumber r with
  | some reg => writeReg reg v s
  | none => .refused .noSuchRegister

/-- The value a host read of a register returns while `BUSY` = 0 (R24 rule 1); CMD reads as an unspecified value (R18, U1), here
free (log 14). -/
def readReg (reg : Reg) (s : State) : HostValue :=
  match reg with
  | .ctr => .bytes s.ctr
  | .ks => .bytes s.ks
  | .n => .number s.n.toNat
  | .src => .number s.src.toNat
  | .dst => .number s.dst.toNat
  | .len => .number s.len.toNat
  | .keyAddr => .number s.keyAddr.toNat
  | .keyLen => .number s.keyLen.toNat
  | .cmd => .number (Config.freeBits .cmdRead s.draws 32).toNat
  | .status => .number (statusWord s).toNat

/-- The host has got a value. -/
def State.answer (s : State) (v : HostValue) : State := { s with reads := s.reads ++ [v] }

/-- A read of a register changes nothing (R24); that of CMD uses up one free value, so the next is independent (U1). -/
def State.afterRead (s : State) (reg : Reg) : State :=
  match reg with
  | .cmd => { s with draws := s.draws + 1 }
  | _ => s

/-- HostRead(r) while `BUSY` = 0. -/
def hostRead (r : Nat) (s : State) : Host.Outcome State Fault Refusal :=
  match Reg.ofNumber r with
  | some reg => .next ((s.afterRead reg).answer (readReg reg s))
  | none => .refused .noSuchRegister

/-- HostRead(STATUS) while `BUSY` = 1 (R20): BUSY = 1, the rest unspecified, drawn afresh (log 15). -/
def State.busyStatusRead (s : State) : State :=
  { s with draws := s.draws + 1 }.answer (.number (busyStatusWord s).toNat)

/-- The host's access to data memory: inside the address space (R40), to admitted addresses (R59). -/
def hostMemory (s : State) (r : Region) (t : State) : Host.Outcome State Fault Refusal :=
  if r.base + r.size ≤ 2 ^ Config.aw then admittedOr (s.admits r) t else .fault .outsideMemory

/-- The host stores bytes (R69 `MEM`). -/
def hostStore (a : Nat) (d : List Byte) (s : State) : Host.Outcome State Fault Refusal :=
  hostMemory s ⟨a, d.length⟩ { s with mem := s.mem.writeBytes a d }

/-- The host loads bytes (R69 `RDMEM`). -/
def hostLoad (a n : Nat) (s : State) : Host.Outcome State Fault Refusal :=
  hostMemory s ⟨a, n⟩ (s.answer (.data (s.mem.readBytes a n)))

/-- The ranges the command in flight reads (R57); an illegal word reads nothing. -/
def State.rangesRead (s : State) : List Region :=
  match decode s.cmd with
  | .command i => s.readRanges i
  | .illegal _ => []

/-- The ranges the command in flight writes (R57); an illegal word writes nothing. -/
def State.rangesWritten (s : State) : List Region :=
  match decode s.cmd with
  | .command i => s.writeRanges i
  | .illegal _ => []

/-- While `BUSY` = 1 nobody else writes a byte of the source, destination or key range (R215). -/
def hostStoreBusy (a : Nat) (d : List Byte) (s : State) : Host.Outcome State Fault Refusal :=
  if (s.rangesRead ++ s.rangesWritten).any fun u => u.meets ⟨a, d.length⟩ then .refused .bufferInUse
  else hostStore a d s

/-- While `BUSY` = 1 nobody else reads a byte of the destination range (R52, R215, U7). -/
def hostLoadBusy (a n : Nat) (s : State) : Host.Outcome State Fault Refusal :=
  if s.rangesWritten.any fun u => u.meets ⟨a, n⟩ then .refused .bufferInUse
  else hostLoad a n s

/-- HostRead(r) while `BUSY` = 1: STATUS only (R24 rule 2). -/
def hostReadBusy (r : Nat) (s : State) : Host.Outcome State Fault Refusal :=
  if r = Reg.status.number then .next s.busyStatusRead else .refused .hostAccessWhileBusy

end Sys2Proof.Machine
end

