-- ==== Sys2Proof/Machine/Issue.lean ====
section
/-! DEFINITION. The CORE's step on the latched word (30_encoding.md R68), reset during a command (70_reset_and_hazards.md R212),
and which of the two sides moves. -/

namespace Sys2Proof.Machine

/-- The CORE executes the latched word to completion (R68): a legal word as its command says, any other raises IllegalCommand,
found at decode before any operand is examined (R182). -/
def runCommand (s : State) : Host.Outcome State Fault Refusal :=
  match decode s.cmd with
  | .command i => exec i s
  | .illegal _ => .next (s.raise .illegalCommand)

/-- Of `n` bytes at `base`, those picked take their final value (R212, U8). -/
def landBytes (picked : Nat → Bool) (base : Nat) (final : Memory) : Nat → Memory → Memory
  | 0, m => m
  | n + 1, m =>
    let m' := landBytes picked base final n m
    if picked n then m'.write (base + n) (final.read (base + n)) else m'

/-- How many of its port transactions the abandoned command had made when reset came (R168, R212; free, log 16). -/
def State.transactionsMade (s : State) : Nat := Config.freeCount .portPrefix s.draws

/-- How many transactions the command in flight makes before its first `BC.ENC`: ENCRYPT's `BC.SETUP` (R168). -/
def State.setupsFirst (s : State) : Nat :=
  match decode s.cmd with
  | .command .encrypt => 1
  | _ => 0

/-- Output byte `p` had been written when reset came: a free choice for each byte (R212, U8; log 16), among the bytes whose
keystream block had been generated, since its `BC.ENC`, and ENCRYPT's `BC.SETUP` before it, come first (R51 b and d). -/
def State.landed (s : State) (p : Nat) : Bool :=
  decide (s.setupsFirst + p / 16 < s.transactionsMade) && Config.freeBool (.landed p) s.draws

/-- Memory when the command that would end with `final` is abandoned: each byte of the range it writes holds its old value or its
final one (R212, U8). -/
def landedMemory (s : State) (final : Memory) : Memory :=
  s.rangesWritten.foldl (fun m r => landBytes s.landed r.base final r.size m) s.mem

/-- The port transactions of an abandoned command: the first few of those it would have made (R51 c, R168). -/
def landedPort (s : State) (final : List PortEvent) : List PortEvent :=
  s.port ++ (final.drop s.port.length).take s.transactionsMade

/-- Reset while `BUSY` = 1 (R212): the command is abandoned. -/
def abandon (s : State) : Host.Outcome State Fault Refusal :=
  match runCommand s with
  | .next t => .next { s with mem := landedMemory s t.mem, port := landedPort s t.port }.assertReset
  | .fault f => .fault f
  | .refused r => .refused r

/-- A move of the host while `BUSY` = 0. -/
def hostMoveIdle (m : HostMove) (s : State) : Host.Outcome State Fault Refusal :=
  match m with
  | .write r v => hostWrite r v s
  | .read r => hostRead r s
  | .store a d => hostStore a d s
  | .load a n => hostLoad a n s
  | .reset => .next s.assertReset
  | .wait => .next s

/-- A move of the host while `BUSY` = 1. -/
def hostMoveBusy (m : HostMove) (s : State) : Host.Outcome State Fault Refusal :=
  match m with
  | .write _ _ => .refused .hostAccessWhileBusy
  | .read r => hostReadBusy r s
  | .store a d => hostStoreBusy a d s
  | .load a n => hostLoadBusy a n s
  | .reset => abandon s
  | .wait => runCommand s

/-- One step: the host's next move, `wait` being the CORE's turn. When the host has no move left the CORE runs the command in
flight (R226), and when there is none it rests (R195). -/
def nextMove (s : State) : Host.Outcome State Fault Refusal :=
  match s.host with
  | [] => if s.busy then runCommand s else .next s
  | m :: rest => if s.busy then hostMoveBusy m { s with host := rest } else hostMoveIdle m { s with host := rest }

/-- The state just after the issue of the word `w`, with the CORE to move next: BUSY is 1, the word is latched (R68). -/
def State.issued (s : State) (w : CmdWord) : State := { s.issue w with host := .wait :: s.host }

end Sys2Proof.Machine
end

