-- ==== Sys2Proof/Machine/Step.lean ====
section
/-! DEFINITION. One step of the machine, and where a command word is put for the next step to run it. -/

namespace Sys2Proof.Machine

/-- One step: one move of the host, or one whole command (00_scope.md R7, R8). -/
def step (s : State) : Host.Outcome State Fault Refusal := nextMove s

/-- `s` with the command whose `nbits` lowest bits are `w` issued: in the CMD latch, BUSY = 1, the CORE to move (R68, log 2). -/
def State.withFetchWord (s : State) (nbits w : Nat) : State := s.issued (BitVec.ofNat 32 (w % 2 ^ nbits))

end Sys2Proof.Machine
end

