-- ==== Sys2Proof/Safety.lean ====
section
/-! DEFINITION. What holds in every state a run can reach, as predicates that the statements use. -/

namespace Sys2Proof.Machine

/-- Memory is in its canonical form and lists no address outside the address space (R40, R58). -/
def State.MemoryOk (s : State) : Prop := s.mem.wf ∧ s.mem.below (2 ^ Config.aw)

/-- A `BC.SETUP` event with the encrypt direction, a supported length and as many key bytes (R145, R161). -/
def PortEvent.SetupOk (keyLens : List Nat) : PortEvent → Prop
  | .setup dir key keyLength => dir = Config.dirEnc ∧ keyLength ∈ keyLens ∧ key.length = keyLength
  | .enc _ _ => True

/-- A schedule that some `BC.SETUP` of the record answered (R12: only the port's key setup produces a value for SCHED). -/
def Derived (port : List PortEvent) (sched : Schedule) : Prop :=
  ∃ dir key keyLength, .setup dir key keyLength ∈ port ∧ sched = Config.setupKey dir key keyLength

/-- A `BC.ENC` event with a schedule that the record derived (R162: "always the current SCHED"). -/
def PortEvent.EncOk (port : List PortEvent) : PortEvent → Prop
  | .setup _ _ _ => True
  | .enc sched _ => Derived port sched

/-- Every transaction on record is one the CORE makes. -/
def State.PortOk (s : State) : Prop := ∀ e ∈ s.port, e.SetupOk s.keyLens ∧ e.EncOk s.port

/-- A schedule held is one that key setup gave (R12). -/
def State.SchedOk (s : State) : Prop := s.schedV = true → Derived s.port s.sched

/-- The invariant of the machine. -/
structure State.Inv (s : State) : Prop where
  memory : s.MemoryOk
  port   : s.PortOk
  sched  : s.SchedOk

/-- Keystream byte `p` of a transform that starts at counter `c` (R113, R117): byte `p mod 16` of the block for the counter value
reached after `p div 16` increments. -/
def keystreamByte (enc : Schedule → Block → Block) (sched : Schedule) (c : Block) (p : Nat) : Byte :=
  byteAt (enc sched (incTimes (p / 16) c)) (p % 16)

/-- The `BC.ENC` transactions of a transform of `len` bytes (R168): one for each of the `ceil(len / 16)` counter values. -/
def encEvents (sched : Schedule) (c : Block) (len : Nat) : List PortEvent :=
  (List.range ((len + 15) / 16)).map fun k => .enc sched (incTimes k c)

/-- The CORE is to move: a command is in flight and the host lets it run (R68, R226). -/
def State.coreTurn (s : State) : Bool :=
  s.busy && match s.host with
    | [] => true
    | m :: _ => m == .wait

/-- The state the command runs on: the host's `wait` is used up. -/
def State.afterWait (s : State) : State := { s with host := s.host.tail }

/-- Buffer legality in the words of R49: the three conditions on SRC, DST and LEN. -/
def State.LegalBuffers (s : State) : Prop :=
  s.src.toNat + s.len.toNat ≤ 2 ^ Config.aw ∧
  s.dst.toNat + s.len.toNat ≤ 2 ^ Config.aw ∧
  (s.len.toNat = 0 ∨ s.src = s.dst ∨ s.src.toNat + s.len.toNat ≤ s.dst.toNat ∨
    s.dst.toNat + s.len.toNat ≤ s.src.toNat)

/-- The key length is supported and the key range does not run past the top (R141, R56). -/
def State.LegalKey (s : State) : Prop :=
  s.validKeyLen s.keyLen.toNat = true ∧ s.keyAddr.toNat + s.keyLen.toNat ≤ 2 ^ Config.aw

/-- The platform admits each of `n` addresses from `base` upward (R59). -/
def State.AdmitsRange (s : State) (base n : Nat) : Prop := ∀ a, base ≤ a → a < base + n → s.memAdmit a = true

/-- No address of the `n` from `base` upward lies in one of the ranges. -/
def Untouched (ranges : List Region) (base n : Nat) : Prop :=
  ∀ u ∈ ranges, ∀ x, base ≤ x → x < base + n → u.holds x = false

/-- No address lies in a range of both lists. -/
def ShareNoByte (us vs : List Region) : Prop :=
  ∀ u ∈ us, ∀ v ∈ vs, ∀ x, ¬ (u.holds x = true ∧ v.holds x = true)

/-- The platform admits every byte of source and destination. -/
def State.AdmitsBuffers (s : State) : Prop :=
  s.AdmitsRange s.src.toNat s.len.toNat ∧ s.AdmitsRange s.dst.toNat s.len.toNat

/-- The platform admits every key byte. -/
def State.AdmitsKey (s : State) : Prop := s.AdmitsRange s.keyAddr.toNat s.keyLen.toNat

/-- XFORM does its work: a schedule is held, the buffers are legal and admitted (R116, R59). -/
def State.XformRuns (s : State) : Prop := s.schedV = true ∧ s.LegalBuffers ∧ s.AdmitsBuffers

/-- KSETUP does its work (R141, R59). -/
def State.KsetupRuns (s : State) : Prop := s.LegalKey ∧ s.AdmitsKey

/-- ENCRYPT does its work (R142, R59). -/
def State.EncryptRuns (s : State) : Prop := s.LegalKey ∧ s.AdmitsKey ∧ s.LegalBuffers ∧ s.AdmitsBuffers

/-- Output byte `p` of a transform is the input byte xor the keystream byte (R117), and no byte outside the destination range has
changed. `s` is the state at issue, `m` the memory at completion. -/
def State.Transforms (s : State) (sched : Schedule) (m : Memory) : Prop :=
  (∀ p < s.len.toNat, m.read (s.dst.toNat + p) =
    s.mem.read (s.src.toNat + p) ^^^ byteAt (Config.encryptBlock sched (incTimes (p / 16) s.ctr)) (p % 16)) ∧
  ∀ a, ¬ (s.dst.toNat ≤ a ∧ a < s.dst.toNat + s.len.toNat) → m.read a = s.mem.read a

/-- The registers no command writes (R15, R16, R17) hold what they held. -/
def State.SameOperands (s t : State) : Prop :=
  t.n = s.n ∧ t.src = s.src ∧ t.dst = s.dst ∧ t.len = s.len ∧ t.keyAddr = s.keyAddr ∧ t.keyLen = s.keyLen

/-- The command latch, the two parameters held in State, the host's moves and what its reads have returned are as they were. -/
def State.SameSurroundings (s t : State) : Prop :=
  t.cmd = s.cmd ∧ t.unmapped = s.unmapped ∧ t.keyLens = s.keyLens ∧ t.host = s.host ∧ t.reads = s.reads

end Sys2Proof.Machine
end

