-- ==== Sys2Proof/Certificates/Slice0/Obligations.lean ====
section
/-! DEFINITION. The statements for the provers. Each says in its docstring which rule of spec/ it formalises. -/

open Sys2Proof Sys2Proof.Machine

/-! ### Encoding -/

/-- R63: the six command words, in both directions of the table. -/
def Obligations.SixWordsEncodeAndDecode : Prop :=
  (encode .inc = 0x00000001#32 ∧ encode .add = 0x00000002#32 ∧ encode .gen = 0x00000003#32 ∧
    encode .xform = 0x00000004#32 ∧ encode .ksetup = 0x00000005#32 ∧ encode .encrypt = 0x00000006#32) ∧
  decode 0x00000001#32 = .command .inc ∧ decode 0x00000002#32 = .command .add ∧
  decode 0x00000003#32 = .command .gen ∧ decode 0x00000004#32 = .command .xform ∧
  decode 0x00000005#32 = .command .ksetup ∧ decode 0x00000006#32 = .command .encrypt ∧
  decodeTableWord 32 4 = some .xform ∧ decodeTableWord 32 0 = none ∧ decodeTableWord 32 0x80000004 = none

/-- R61: `op` is bits 7:0 and `rsv` bits 31:8 of the word, and no bit is dropped. -/
def Obligations.FieldsAreTheWordsBits : Prop :=
  ∀ w : CmdWord, (fieldsOf w).op.toNat = w.toNat % 256 ∧ (fieldsOf w).rsv.toNat = w.toNat / 256 ∧
    (fieldsOf w).rsv ++ (fieldsOf w).op = w

/-- R66: every word is one of the six or illegal; a word decodes to a command exactly when it is that command's word, so decoding an
encoded command gives it back; the words that decode are those whose fields are well formed. -/
def Obligations.EveryWordIsOneOfSixOrIllegal : Prop :=
  (∀ i : Instr, i.wf = true ∧ decode (encode i) = .command i) ∧
  ∀ w : CmdWord, (∀ i, decode w = .command i ↔ w = encode i) ∧
    ((∃ i, decode w = .command i) ↔ 1 ≤ w.toNat ∧ w.toNat ≤ 6) ∧
    ((∃ i, decode w = .command i) ↔ (fieldsOf w).wf = true) ∧
    ((¬ ∃ i, decode w = .command i) → ∃ why, decode w = .illegal why)

/-- R64, R65, R182: a word with a reserved opcode or reserved bits set raises IllegalCommand and changes nothing but STATUS (and
uses up the host's `wait`). -/
def Obligations.IllegalWordChangesOnlyStatus : Prop :=
  ∀ s : State, s.coreTurn = true →
    ((fieldsOf s.cmd).rsv ≠ 0 ∨ (fieldsOf s.cmd).op = 0 ∨ 7 ≤ (fieldsOf s.cmd).op.toNat) →
    step s = .next { s with host := s.host.tail, err := .illegalCommand, busy := false }

/-! ### Counter -/

/-- R80: the value of a counter is the big-endian sum over its bytes, and its two words. -/
def Obligations.CounterValueIsBigEndian : Prop :=
  ∀ c : Block,
    val128 c = ∑ k : Fin 16, (byteAt c k).toNat * 256 ^ (15 - k.val) ∧
    be64 (highBytes c) = ∑ k : Fin 8, (byteAt c k).toNat * 256 ^ (7 - k.val) ∧
    be64 (lowBytes c) = ∑ k : Fin 8, (byteAt c (8 + k)).toNat * 256 ^ (7 - k.val) ∧
    val128 c = be64 (highBytes c) * 2 ^ 64 + be64 (lowBytes c)

/-- R81: the byte form and the value form of `inc128`, the second the spec's own inference ("[derived: from rule R80]"). Byte `k`,
the last byte that is not 0xff, goes up by one, the bytes after it become 0, the bytes before it stay; 16 bytes of 0xff become 16
zero bytes. -/
def Obligations.Inc128ByteFormAndValueForm : Prop :=
  ∀ c : Block,
    (∀ k < 16, byteAt c k ≠ 0xff#8 → (∀ j, k < j → j < 16 → byteAt c j = 0xff#8) →
      ∀ j < 16, byteAt (inc128 c) j = if j < k then byteAt c j else if j = k then byteAt c k + 1#8 else 0#8) ∧
    ((∀ j < 16, byteAt c j = 0xff#8) → inc128 c = zeroBlock) ∧
    val128 (inc128 c) = (val128 c + 1) % 2 ^ 128

/-- R82: the words, the carry and the value of `add128`, the value the spec's own inference ("[derived: from rule R80]"). -/
def Obligations.Add128WordFormAndValueForm : Prop :=
  ∀ (c : Block) (n : Nat), n < 2 ^ 64 →
    be64 (lowBytes (add128 c n)) = (be64 (lowBytes c) + n) % 2 ^ 64 ∧
    be64 (highBytes (add128 c n)) = (be64 (highBytes c) + (be64 (lowBytes c) + n) / 2 ^ 64) % 2 ^ 64 ∧
    (be64 (lowBytes c) + n) / 2 ^ 64 ≤ 1 ∧
    ((be64 (lowBytes c) + n) / 2 ^ 64 = 1 ↔ 2 ^ 64 ≤ be64 (lowBytes c) + n) ∧
    ((be64 (lowBytes c) + n) / 2 ^ 64 = 1 ↔ be64 (lowBytes (add128 c n)) < be64 (lowBytes c)) ∧
    val128 (add128 c n) = (val128 c + n) % 2 ^ 128

/-- R83: the increment/add law and its consequences, which the spec marks "[derived: from rules R81, R82]". -/
def Obligations.AddIsRepeatedIncrement : Prop :=
  (∀ (c : Block) (n : Nat), n < 2 ^ 64 → add128 c n = incTimes n c) ∧
  (∀ c : Block, add128 c 0 = c ∧ add128 c 1 = inc128 c) ∧
  (∀ (c : Block) (a b : Nat), a + b < 2 ^ 64 → add128 (add128 c a) b = add128 c (a + b)) ∧
  (∀ (c : Block) (a b : Nat), a < 2 ^ 64 → b < 2 ^ 64 →
    val128 (add128 (add128 c a) b) = (val128 c + a + b) % 2 ^ 128) ∧
  ∀ (c : Block) (n : Nat), n = 2 ^ 128 → incTimes n c = c

/-- R84: INC completes in every state, changes CTR, ERR and BUSY and nothing else; its corner cases and its worked example. -/
def Obligations.IncIncrementsCtrAndNothingElse : Prop :=
  ∀ s : State, exec .inc s = .next { s with ctr := inc128 s.ctr, err := .ok, busy := false } ∧
    ((∀ j < 16, byteAt s.ctr j = 0xff#8) → inc128 s.ctr = zeroBlock) ∧
    ((∀ j, 8 ≤ j → j < 16 → byteAt s.ctr j = 0xff#8) →
      be64 (lowBytes (inc128 s.ctr)) = 0 ∧
      be64 (highBytes (inc128 s.ctr)) = (be64 (highBytes s.ctr) + 1) % 2 ^ 64) ∧
    (s.ctr = #v[0, 0, 0, 0, 0, 0, 0, 0, 0xff, 0xff, 0xff, 0xff, 0xff, 0xff, 0xff, 0xff] →
      inc128 s.ctr = #v[0, 0, 0, 0, 0, 0, 0, 1, 0, 0, 0, 0, 0, 0, 0, 0])

/-- R85: ADD completes in every state, changes CTR, ERR and BUSY and nothing else; its corner cases and its worked example. -/
def Obligations.AddAdvancesCtrAndNothingElse : Prop :=
  ∀ s : State, exec .add s = .next { s with ctr := add128 s.ctr s.n.toNat, err := .ok, busy := false } ∧
    (s.n = 0 → add128 s.ctr s.n.toNat = s.ctr) ∧
    (s.n = 1 → add128 s.ctr s.n.toNat = inc128 s.ctr) ∧
    (s.n = 0xffffffffffffffff#64 →
      be64 (lowBytes (add128 s.ctr s.n.toNat)) = (be64 (lowBytes s.ctr) + (2 ^ 64 - 1)) % 2 ^ 64 ∧
      be64 (highBytes (add128 s.ctr s.n.toNat)) =
        if 1 ≤ be64 (lowBytes s.ctr) then (be64 (highBytes s.ctr) + 1) % 2 ^ 64 else be64 (highBytes s.ctr)) ∧
    ((∀ j < 16, byteAt s.ctr j = 0xff#8) → s.n = 0x100#64 →
      add128 s.ctr s.n.toNat = #v[0, 0, 0, 0, 0, 0, 0, 0, 0, 0, 0, 0, 0, 0, 0, 0xff])

/-! ### Keystream generator -/

/-- R101: GEN with a schedule writes the keystream block of CTR to KS and makes one `BC.ENC`; without one it raises NoSchedule.
Nothing else changes, CTR among it (R102). -/
def Obligations.GenWritesKeystreamBlock : Prop :=
  ∀ s : State,
    (s.schedV = true → exec .gen s = .next { s with
      ks := Config.encryptBlock s.sched s.ctr, port := s.port ++ [.enc s.sched s.ctr], err := .ok, busy := false }) ∧
    (s.schedV = false → exec .gen s = .next { s with err := .noSchedule, busy := false })

/-! ### Stream transform -/

/-- R117, which the spec marks "[derived: from rules R112, R113, R114]": the closed form of XFORM's output, and nothing outside the
destination range changes. -/
def Obligations.XformOutputClosedForm : Prop :=
  ∀ s : State, s.XformRuns → ∃ t, exec .xform s = .next t ∧ s.Transforms s.sched t.mem

/-- R125: the state after XFORM. KS after a transform of at least one byte is unspecified and WC and I are dead, so nothing is said
of them (log 12). -/
def Obligations.StateAfterXform : Prop :=
  ∀ s : State, s.XformRuns → ∃ t, exec .xform s = .next t ∧
    t.ctr = s.ctr ∧ s.SameOperands t ∧ t.sched = s.sched ∧ t.schedV = s.schedV ∧ s.SameSurroundings t ∧
    s.Transforms s.sched t.mem ∧ t.err = .ok ∧ t.busy = false ∧
    (s.len.toNat = 0 → t.ks = s.ks)

/-- R118, which the spec marks "[derived: from rules R112, R114]": the number of generations and of increments. -/
def Obligations.XformGenerationCount : Prop :=
  ∀ s : State, s.XformRuns → ∃ t, exec .xform s = .next t ∧
    (∃ events : List PortEvent, t.port = s.port ++ events ∧
      events.length = s.len.toNat / 16 + (if s.len.toNat % 16 = 0 then 0 else 1) ∧
      events.length = (s.len.toNat + 15) / 16 ∧ ∀ e ∈ events, ∃ c, e = .enc s.sched c) ∧
    (s.xferEnd s.sched).wc = incTimes (s.len.toNat / 16) s.ctr

/-- R119: XFORM of zero bytes succeeds whatever SRC and DST hold, and leaves memory, port, KS and CTR alone. -/
def Obligations.ZeroLengthXformTouchesNothing : Prop :=
  ∀ s : State, s.schedV = true → s.len = 0 → ∃ t, exec .xform s = .next t ∧
    t.err = .ok ∧ t.busy = false ∧ t.mem = s.mem ∧ t.port = s.port ∧ t.ks = s.ks ∧ t.ctr = s.ctr ∧ t.schedV = true

/-- R49: the three conditions decide BadBuffer, for XFORM and for ENCRYPT; an illegal buffer leaves memory alone. -/
def Obligations.BufferLegalityDecidesBadBuffer : Prop :=
  ∀ s : State,
    (s.schedV = true → ¬ s.LegalBuffers → exec .xform s = .next { s with err := .badBuffer, busy := false }) ∧
    (s.XformRuns → ∃ t, exec .xform s = .next t ∧ t.err = .ok) ∧
    (s.KsetupRuns → ¬ s.LegalBuffers →
      ∃ t, exec .encrypt s = .next t ∧ t.err = .badBuffer ∧ t.mem = s.mem) ∧
    (s.EncryptRuns → ∃ t, exec .encrypt s = .next t ∧ t.err = .ok)

/-- R49: legal buffers of at least one byte lie inside the address space and are the same range or share no address. -/
def Obligations.LegalBuffersAreSameOrDisjoint : Prop :=
  ∀ s : State, 0 < s.len.toNat →
    (s.buffersLegal = true ↔
      s.src.toNat + s.len.toNat ≤ 2 ^ Config.aw ∧ s.dst.toNat + s.len.toNat ≤ 2 ^ Config.aw ∧
      (s.src = s.dst ∨ ∀ a, ¬ (s.srcRange.holds a = true ∧ s.dstRange.holds a = true)))

/-- R59: a command whose legal ranges hold an address the platform does not admit is refused, and nothing else stops a command. That an
error found before a range is used comes before the refusal, and that the key range of ENCRYPT counts also when its data buffers are
illegal, is the model's reading (log 25). -/
def Obligations.UnadmittedAddressIsRefused : Prop :=
  ∀ s : State,
    (∀ i f, exec i s ≠ .fault f) ∧ (∀ i r, exec i s = .refused r → r = .notAdmitted) ∧
    (∀ i, i = .inc ∨ i = .add ∨ i = .gen → ∃ t, exec i s = .next t) ∧
    (exec .xform s = .refused .notAdmitted ↔ s.schedV = true ∧ s.LegalBuffers ∧ ¬ s.AdmitsBuffers) ∧
    (exec .ksetup s = .refused .notAdmitted ↔ s.LegalKey ∧ ¬ s.AdmitsKey) ∧
    (exec .encrypt s = .refused .notAdmitted ↔
      s.LegalKey ∧ (¬ s.AdmitsKey ∨ (s.LegalBuffers ∧ ¬ s.AdmitsBuffers))) ∧
    (s.schedV = false ∨ ¬ s.LegalBuffers → ∃ t, exec .xform s = .next t ∧ t.err ≠ .ok) ∧
    (¬ s.LegalKey → (∃ t, exec .ksetup s = .next t ∧ t.err ≠ .ok) ∧ ∃ t, exec .encrypt s = .next t ∧ t.err ≠ .ok) ∧
    (s.KsetupRuns → ¬ s.LegalBuffers → ∃ t, exec .encrypt s = .next t ∧ t.err = .badBuffer)

/-- R122, which the spec marks "[derived: from rule R117]": CTR mode is self-inverse, in place and from A to B to C. -/
def Obligations.XformIsSelfInverse : Prop :=
  (∀ s : State, s.XformRuns → s.src = s.dst →
    ∃ t u, exec .xform s = .next t ∧ exec .xform t = .next u ∧ ∀ a, u.mem.read a = s.mem.read a) ∧
  ∀ (s : State) (c : BitVec Config.aw), s.XformRuns → State.XformRuns { s with src := s.dst, dst := c } →
    ∃ t u, exec .xform s = .next t ∧ exec .xform { t with src := s.dst, dst := c } = .next u ∧
      ∀ p < s.len.toNat, u.mem.read (c.toNat + p) = s.mem.read (s.src.toNat + p)

/-- R123: the output is a function of SCHED, CTR, LEN and the input bytes alone. -/
def Obligations.XformOutputDependsOnScheduleCounterInput : Prop :=
  ∀ s t : State, s.XformRuns → t.XformRuns → t.sched = s.sched → t.ctr = s.ctr → t.len = s.len →
    (∀ p < s.len.toNat, t.mem.read (t.src.toNat + p) = s.mem.read (s.src.toNat + p)) →
    ∃ s' t', exec .xform s = .next s' ∧ exec .xform t = .next t' ∧
      ∀ p < s.len.toNat, t'.mem.read (t.dst.toNat + p) = s'.mem.read (s.dst.toNat + p)

/-- R124 as corrected by C1, which the spec marks "[derived: from rules R113, R114, R117]": one XFORM equals two, split after `16 m`
bytes, when the second starts at the counter advanced `m` times; ADD with N = m reaches that counter when `m` fits into N. -/
def Obligations.XformSplitsAtMultiplesOfSixteen : Prop :=
  ∀ (s : State) (m : Nat), s.XformRuns → 16 * m ≤ s.len.toNat →
    ∃ whole first second,
      exec .xform s = .next whole ∧
      exec .xform { s with len := BitVec.ofNat Config.lenw (16 * m) } = .next first ∧
      exec .xform { first with
        ctr := incTimes m s.ctr
        src := s.src + BitVec.ofNat Config.aw (16 * m)
        dst := s.dst + BitVec.ofNat Config.aw (16 * m)
        len := s.len - BitVec.ofNat Config.lenw (16 * m) } = .next second ∧
      (∀ a, second.mem.read a = whole.mem.read a) ∧
      (m < 2 ^ 64 → ∃ seek, exec .add { first with n := BitVec.ofNat 64 m } = .next seek ∧ seek.ctr = incTimes m s.ctr)

/-- R22, its last equation marked "[derived: from rule R21 and 42_transform.md rule R112]": within the transform, after `k` chunks
the chunk index is `k` and the working counter is CTR advanced by `k`; the index never needs more than LENW - 4 bits. -/
def Obligations.WorkingCounterFollowsChunkIndex : Prop :=
  ∀ (s : State) (sched : Schedule) (k : Nat),
    (s.xferStart.chunks Config.encryptBlock sched s.src.toNat s.dst.toNat k).idx = k ∧
    val128 (s.xferStart.chunks Config.encryptBlock sched s.src.toNat s.dst.toNat k).wc = (val128 s.ctr + k) % 2 ^ 128 ∧
    s.len.toNat / 16 < 2 ^ (Config.lenw - 4)

/-! ### Invocation wrapper -/

/-- R141: KSETUP on a supported length and a legal key range, and its two errors in their order. The key is the bytes of the key
range in address order. The old schedule is lost on either error; nothing is said of what the dead SCHED then holds (`content`),
nor of the model's count of free values. -/
def Obligations.KsetupDerivesScheduleOrLosesIt : Prop :=
  ∀ s : State,
    (s.KsetupRuns → exec .ksetup s = .next { s with
      sched := Config.setupKey Config.dirEnc
        ((List.range s.keyLen.toNat).map fun k => s.mem.read (s.keyAddr.toNat + k)) s.keyLen.toNat
      schedV := true
      port := s.port ++ [.setup Config.dirEnc
        ((List.range s.keyLen.toNat).map fun k => s.mem.read (s.keyAddr.toNat + k)) s.keyLen.toNat]
      err := .ok
      busy := false }) ∧
    (s.validKeyLen s.keyLen.toNat = false → ∃ content count, exec .ksetup s = .next { s with
      schedV := false, sched := content, draws := count, err := .invalidKeyLength, busy := false }) ∧
    (s.validKeyLen s.keyLen.toNat = true → 2 ^ Config.aw < s.keyAddr.toNat + s.keyLen.toNat →
      ∃ content count, exec .ksetup s = .next { s with
        schedV := false, sched := content, draws := count, err := .badBuffer, busy := false })

/-- R142: ENCRYPT derives a schedule, transforms with it and keeps none; its three errors in their order. The bytes of the output are
R117's closed form, which the spec marks "[derived: from rules R112, R113, R114]". Of the dead SCHED (`content`), WC and I and of the
model's count of free values nothing is said. -/
def Obligations.EncryptTransformsUnderDerivedSchedule : Prop :=
  ∀ s : State,
    let key := (List.range s.keyLen.toNat).map fun k => s.mem.read (s.keyAddr.toNat + k)
    let sched := Config.setupKey Config.dirEnc key s.keyLen.toNat
    let setup := PortEvent.setup Config.dirEnc key s.keyLen.toNat
    (s.EncryptRuns → ∃ t, exec .encrypt s = .next t ∧ s.Transforms sched t.mem ∧
      t.port = s.port ++ setup :: (List.range ((s.len.toNat + 15) / 16)).map (fun k => .enc sched (incTimes k s.ctr)) ∧
      t.schedV = false ∧ t.err = .ok ∧ t.busy = false ∧ t.ctr = s.ctr ∧ s.SameOperands t ∧ s.SameSurroundings t ∧
      (s.len.toNat = 0 → t.ks = s.ks ∧ t.mem = s.mem)) ∧
    (s.validKeyLen s.keyLen.toNat = false → ∃ content count, exec .encrypt s = .next { s with
      schedV := false, sched := content, draws := count, err := .invalidKeyLength, busy := false }) ∧
    (s.validKeyLen s.keyLen.toNat = true → 2 ^ Config.aw < s.keyAddr.toNat + s.keyLen.toNat →
      ∃ content count, exec .encrypt s = .next { s with
        schedV := false, sched := content, draws := count, err := .badBuffer, busy := false }) ∧
    (s.KsetupRuns → ¬ s.LegalBuffers → ∃ content count, exec .encrypt s = .next { s with
      port := s.port ++ [setup], schedV := false, sched := content, draws := count, err := .badBuffer, busy := false })

/-- R143: ENCRYPT never writes partial output: when it ends with an error, memory and KS are as at issue and no block was
encrypted. -/
def Obligations.EncryptFailsFast : Prop :=
  ∀ s t : State, exec .encrypt s = .next t → t.err ≠ .ok →
    t.mem = s.mem ∧ t.ks = s.ks ∧ ∀ e ∈ t.port.drop s.port.length, ∃ dir key n, e = .setup dir key n

/-- R70: ENCRYPT behaves as KSETUP followed by XFORM followed by discarding the schedule, on success and on each error. That KS, WC
and I come out the same is the model's: both sides draw the same free values (log 12). -/
def Obligations.EncryptIsKsetupXformDiscard : Prop :=
  ∀ s k : State, exec .ksetup s = .next k →
    (k.err ≠ .ok → ∃ content count, exec .encrypt s = .next { k with sched := content, draws := count }) ∧
    (k.err = .ok → ∀ x, exec .xform k = .next x → ∃ content count,
      exec .encrypt s = .next { x with schedV := false, sched := content, draws := count })

/-- R144, R20: only reset, KSETUP and ENCRYPT change SCHED or SCHED_V. -/
def Obligations.ScheduleChangesOnlyByResetKsetupEncrypt : Prop :=
  ∀ s t : State, step s = .next t → t.schedV ≠ s.schedV ∨ t.sched ≠ s.sched →
    (∃ rest, s.host = .reset :: rest) ∨
    (s.coreTurn = true ∧ (decode s.cmd = .command .ksetup ∨ decode s.cmd = .command .encrypt))

/-! ### Errors -/

/-- R183: GEN and XFORM without a schedule raise NoSchedule, also when LEN = 0, and change nothing but STATUS; there is none after
reset, after any ENCRYPT and after a failed KSETUP. -/
def Obligations.NoScheduleWithoutKsetup : Prop :=
  (∀ s : State, s.schedV = false →
    exec .gen s = .next { s with err := .noSchedule, busy := false } ∧
    exec .xform s = .next { s with err := .noSchedule, busy := false }) ∧
  State.reset.schedV = false ∧
  (∀ s t : State, exec .encrypt s = .next t → t.schedV = false) ∧
  ∀ s t : State, exec .ksetup s = .next t → t.err ≠ .ok → t.schedV = false

/-- R187: what an error leaves, illegal words included. Everything is as at issue but ERR, BUSY and, in KSETUP and ENCRYPT,
SCHED_V with the content of the dead SCHED (and the model's count of free values); of the port only ENCRYPT's key setup may have
been used. -/
def Obligations.ErrorLeavesEverythingElse : Prop :=
  ∀ s t : State, runCommand s = .next t → t.err ≠ .ok →
    t.busy = false ∧ t.ctr = s.ctr ∧ t.ks = s.ks ∧ s.SameOperands t ∧ s.SameSurroundings t ∧ t.mem = s.mem ∧
    t.wc = s.wc ∧ t.idx = s.idx ∧
    (decode s.cmd = .command .ksetup ∨ decode s.cmd = .command .encrypt → t.schedV = false) ∧
    (decode s.cmd ≠ .command .ksetup → decode s.cmd ≠ .command .encrypt →
      t.schedV = s.schedV ∧ t.sched = s.sched ∧ t.draws = s.draws) ∧
    (t.port = s.port ∨ (decode s.cmd = .command .encrypt ∧ t.port = s.port ++ [s.setupEvent]))

/-- R181: InvalidKeyLength is raised by KSETUP and ENCRYPT exactly when KEYLEN is not in VALID_KEYLENS, and by no other command. -/
def Obligations.InvalidKeyLengthExactlyWhenUnsupported : Prop :=
  ∀ s : State,
    (s.validKeyLen s.keyLen.toNat = false →
      (∃ t, exec .ksetup s = .next t ∧ t.err = .invalidKeyLength) ∧
      ∃ t, exec .encrypt s = .next t ∧ t.err = .invalidKeyLength) ∧
    ∀ (i : Instr) (t : State), exec i s = .next t → t.err = .invalidKeyLength →
      (i = .ksetup ∨ i = .encrypt) ∧ s.validKeyLen s.keyLen.toNat = false

/-- R71, R180: the errors each command can raise. -/
def Obligations.EachCommandRaisesOnlyItsErrors : Prop :=
  ∀ (i : Instr) (s t : State), exec i s = .next t →
    t.err ∈ (match i with
      | .inc | .add => [ErrCode.ok]
      | .gen => [.ok, .noSchedule]
      | .xform => [.ok, .noSchedule, .badBuffer]
      | .ksetup | .encrypt => [.ok, .invalidKeyLength, .badBuffer])

/-- R20, R189: ERR keeps no history. A command answers the same whatever ERR and BUSY held, and leaves BUSY = 0. That the unspecified
KS, WC and I after a transform, and the content of a dead SCHED, also come out the same in the two runs is the model's choice, not the
spec's: both runs draw the same free values, which `any16` does not promise (logs 12, 13). -/
def Obligations.ErrorDoesNotStick : Prop :=
  ∀ (i : Instr) (s : State) (e : ErrCode) (b : Bool),
    exec i { s with err := e, busy := b } = exec i s ∧ ∀ t, exec i s = .next t → t.busy = false

/-! ### Frames and whole-machine rules -/

/-- R71, R111, R102: what each command leaves alone. -/
def Obligations.CommandsWriteOnlyTheirRegisters : Prop :=
  ∀ (i : Instr) (s t : State), exec i s = .next t →
    s.SameOperands t ∧ s.SameSurroundings t ∧
    (i ≠ .inc → i ≠ .add → t.ctr = s.ctr) ∧
    (i ≠ .gen → i ≠ .xform → i ≠ .encrypt → t.ks = s.ks) ∧
    (i ≠ .ksetup → i ≠ .encrypt → t.sched = s.sched ∧ t.schedV = s.schedV) ∧
    (i ≠ .xform → i ≠ .encrypt → t.wc = s.wc ∧ t.idx = s.idx)

/-- R57, which the spec marks "[derived: ...]": only XFORM and ENCRYPT write data memory, and only inside the destination range;
nothing when LEN = 0 or on an error. -/
def Obligations.MemoryChangesOnlyInDestination : Prop :=
  ∀ (i : Instr) (s t : State), exec i s = .next t →
    (i ≠ .xform → i ≠ .encrypt → t.mem = s.mem) ∧
    (s.len.toNat = 0 ∨ t.err ≠ .ok → t.mem = s.mem) ∧
    ∀ a, ¬ (s.dst.toNat ≤ a ∧ a < s.dst.toNat + s.len.toNat) → t.mem.read a = s.mem.read a

/-- R168: the port transactions of each command, in their order; an illegal word makes none. -/
def Obligations.PortTransactionsInOrder : Prop :=
  (∀ (i : Instr) (s t : State), exec i s = .next t →
    let encs := fun sched => (List.range ((s.len.toNat + 15) / 16)).map fun k => PortEvent.enc sched (incTimes k s.ctr)
    match i with
    | .inc | .add => t.port = s.port
    | .gen => (t.err = .ok → t.port = s.port ++ [.enc s.sched s.ctr]) ∧ (t.err ≠ .ok → t.port = s.port)
    | .xform => (t.err = .ok → t.port = s.port ++ encs s.sched) ∧ (t.err ≠ .ok → t.port = s.port)
    | .ksetup => (t.err = .ok → t.port = s.port ++ [s.setupEvent]) ∧ (t.err ≠ .ok → t.port = s.port)
    | .encrypt =>
        (t.err = .ok → t.port = s.port ++ s.setupEvent :: encs s.derivedSchedule) ∧
        (t.err ≠ .ok → s.LegalKey → t.port = s.port ++ [s.setupEvent]) ∧
        (¬ s.LegalKey → t.port = s.port)) ∧
  ∀ (s t : State) (why : DecodeError), decode s.cmd = .illegal why → runCommand s = .next t → t.port = s.port

/-- The invariant holds at reset. -/
def Obligations.ResetMeetsInvariant : Prop := State.reset.Inv

/-- Every step keeps the invariant: canonical memory inside the address space, only the CORE's own transactions on the port, and a
valid schedule only from key setup (R12, R58, R161, R162). -/
def Obligations.EveryStepKeepsInvariant : Prop :=
  ∀ s t : State, s.Inv → step s = .next t → t.Inv

/-- R194: two COREs that each run XFORM over one memory, where the destination of each shares no byte with the source or the
destination of the other: either order of the two commands gives the same memory. The model holds one CORE (log 22): the two are two
states with one memory, and each command runs whole. That the unspecified KS, WC and I of each CORE are equal in the two orders is
the model's choice, not the spec's: a CORE draws the same free values in both, which `any16` does not promise (log 12). -/
def Obligations.TransformsOfTwoCoresCommute : Prop :=
  ∀ a b : State, a.mem = b.mem → a.XformRuns → b.XformRuns →
    a.dstRange.meets b.srcRange = false → a.dstRange.meets b.dstRange = false → b.dstRange.meets a.srcRange = false →
    ∃ a₁ b₂ b₁ a₂,
      exec .xform a = .next a₁ ∧ exec .xform { b with mem := a₁.mem } = .next b₂ ∧
      exec .xform b = .next b₁ ∧ exec .xform { a with mem := b₁.mem } = .next a₂ ∧
      (∀ x, b₂.mem.read x = a₂.mem.read x) ∧ a₁ = { a₂ with mem := a₁.mem } ∧ b₁ = { b₂ with mem := b₁.mem }

/-- R194 for every pair of commands, ENCRYPT and the key ranges included: when the ranges each command writes share no byte with the
ranges the other reads or writes, either order of the two gives the same bytes of memory, and each CORE ends as it does alone but for
memory. The model holds one CORE (log 22): the two are two states with one memory, and each command runs whole. That the
unspecified KS, WC and I of each CORE, and the content of its dead SCHED, are equal in the two orders is the model's choice, not the
spec's: a CORE draws the same free values in both, which `any16` does not promise (logs 12, 13). -/
def Obligations.CommandsOfTwoCoresCommute : Prop :=
  ∀ (i j : Instr) (a b a₁ b₁ : State), a.mem = b.mem →
    ShareNoByte (a.writeRanges i) (b.readRanges j ++ b.writeRanges j) →
    ShareNoByte (b.writeRanges j) (a.readRanges i ++ a.writeRanges i) →
    exec i a = .next a₁ → exec j b = .next b₁ →
    ∃ a₂ b₂, exec i { a with mem := b₁.mem } = .next a₂ ∧ exec j { b with mem := a₁.mem } = .next b₂ ∧
      (∀ x, a₂.mem.read x = b₂.mem.read x) ∧ a₂ = { a₁ with mem := a₂.mem } ∧ b₂ = { b₁ with mem := b₂.mem }

/-- R6: the two parameters that State holds, MemAdmit and VALID_KEYLENS, are fixed: no step changes them (logs 6, 8). -/
def Obligations.ParametersNeverChange : Prop :=
  ∀ s t : State, step s = .next t → t.unmapped = s.unmapped ∧ t.keyLens = s.keyLens

/-! ### Status and host access -/

/-- R19: STATUS as a word, its reserved bits, and that host writes to it change nothing. -/
def Obligations.StatusWordLayout : Prop :=
  (∀ s : State, (statusWord s).toNat =
    (if s.busy then 1 else 0) + 2 * (if s.schedV then 1 else 0) + 16 * s.err.code.toNat ∧ s.err.code.toNat ≤ 4) ∧
  (ErrCode.code .ok = 0 ∧ ErrCode.code .invalidKeyLength = 1 ∧ ErrCode.code .illegalCommand = 2 ∧
    ErrCode.code .noSchedule = 3 ∧ ErrCode.code .badBuffer = 4) ∧
  State.reset.busy = false ∧ State.reset.schedV = false ∧ State.reset.err = .ok ∧
  ∀ (s : State) (x : Nat) (rest : List HostMove), s.busy = false → s.host = .write 9 (.number x) :: rest → x < 2 ^ 32 →
    step s = .next { s with host := rest }

/-- R20: a STATUS read while BUSY = 1 returns BUSY = 1, zeros in the reserved bits and whatever else; nothing of the CORE
changes. -/
def Obligations.StatusReadWhileBusy : Prop :=
  ∀ (s : State) (rest : List HostMove), s.busy = true → s.host = .read 9 :: rest →
    ∃ x, step s = .next { s with host := rest, reads := s.reads ++ [.number x], draws := s.draws + 1 } ∧
      x % 2 = 1 ∧ x / 4 % 4 = 0 ∧ x < 256

/-- R24 rule 1: a host write while idle replaces the register; KS and STATUS ignore it. -/
def Obligations.HostWriteReplacesRegister : Prop :=
  ∀ (s : State) (rest : List HostMove), s.busy = false →
    (∀ b, s.host = .write 0 (.bytes b) :: rest → step s = .next { s with host := rest, ctr := b }) ∧
    (∀ b, s.host = .write 1 (.bytes b) :: rest → step s = .next { s with host := rest }) ∧
    (∀ v : BitVec 64, s.host = .write 2 (.number v.toNat) :: rest → step s = .next { s with host := rest, n := v }) ∧
    (∀ v : BitVec Config.aw, s.host = .write 3 (.number v.toNat) :: rest → step s = .next { s with host := rest, src := v }) ∧
    (∀ v : BitVec Config.aw, s.host = .write 4 (.number v.toNat) :: rest → step s = .next { s with host := rest, dst := v }) ∧
    (∀ v : BitVec Config.lenw, s.host = .write 5 (.number v.toNat) :: rest →
      step s = .next { s with host := rest, len := v }) ∧
    (∀ v : BitVec Config.aw, s.host = .write 6 (.number v.toNat) :: rest →
      step s = .next { s with host := rest, keyAddr := v }) ∧
    (∀ v : BitVec Config.lenw, s.host = .write 7 (.number v.toNat) :: rest →
      step s = .next { s with host := rest, keyLen := v }) ∧
    (∀ v : BitVec 32, s.host = .write 9 (.number v.toNat) :: rest → step s = .next { s with host := rest })

/-- R24 rule 1: a host read while idle returns the register and changes nothing else; that of CMD returns some 32-bit value. -/
def Obligations.HostReadReturnsRegister : Prop :=
  ∀ (s : State) (r : Nat) (rest : List HostMove), s.busy = false → s.host = .read r :: rest → r ≤ 9 →
    ∃ v, (r ≠ 8 → step s = .next { s with host := rest, reads := s.reads ++ [v] }) ∧
      (r = 8 → step s = .next { s with host := rest, reads := s.reads ++ [v], draws := s.draws + 1 }) ∧
      (r = 0 → v = .bytes s.ctr) ∧ (r = 1 → v = .bytes s.ks) ∧ (r = 2 → v = .number s.n.toNat) ∧
      (r = 3 → v = .number s.src.toNat) ∧ (r = 4 → v = .number s.dst.toNat) ∧ (r = 5 → v = .number s.len.toNat) ∧
      (r = 6 → v = .number s.keyAddr.toNat) ∧ (r = 7 → v = .number s.keyLen.toNat) ∧
      (r = 8 → ∃ x < 2 ^ 32, v = .number x) ∧ (r = 9 → v = .number (statusWord s).toNat)

/-- R24 rules 2 and 3, R214, R215, R59: the host accesses that have no meaning stop the run. What stops, and that an access past the
top of memory faults and a value not of the register's kind and width is refused, is the model's reading (logs 8, 17, 18). -/
def Obligations.ForbiddenHostAccessIsRefused : Prop :=
  ∀ (s : State) (rest : List HostMove),
    (s.busy = true →
      (∀ r v, s.host = .write r v :: rest → step s = .refused .hostAccessWhileBusy) ∧
      (∀ r, r ≠ 9 → s.host = .read r :: rest → step s = .refused .hostAccessWhileBusy) ∧
      (∀ a d, ¬ Untouched (s.rangesRead ++ s.rangesWritten) a d.length → s.host = .store a d :: rest →
        step s = .refused .bufferInUse) ∧
      (∀ a n, ¬ Untouched s.rangesWritten a n → s.host = .load a n :: rest → step s = .refused .bufferInUse)) ∧
    (s.busy = false →
      (∀ r v, 9 < r → s.host = .write r v :: rest → step s = .refused .noSuchRegister) ∧
      (∀ r, 9 < r → s.host = .read r :: rest → step s = .refused .noSuchRegister) ∧
      (∀ r width x, (r, width) ∈ [(2, 64), (3, Config.aw), (4, Config.aw), (5, Config.lenw), (6, Config.aw), (7, Config.lenw),
          (8, 32), (9, 32)] →
        2 ^ width ≤ x → s.host = .write r (.number x) :: rest → step s = .refused .valueNotOfRegisterWidth) ∧
      (∀ r x, r ≤ 1 → s.host = .write r (.number x) :: rest → step s = .refused .valueNotOfRegisterWidth) ∧
      (∀ r b, 2 ≤ r → r ≤ 9 → s.host = .write r (.bytes b) :: rest → step s = .refused .valueNotOfRegisterWidth) ∧
      ∀ r d, r ≤ 9 → s.host = .write r (.data d) :: rest → step s = .refused .valueNotOfRegisterWidth) ∧
    (∀ a d, (s.busy = true → Untouched (s.rangesRead ++ s.rangesWritten) a d.length) → s.host = .store a d :: rest →
      (2 ^ Config.aw < a + d.length → step s = .fault .outsideMemory) ∧
      (a + d.length ≤ 2 ^ Config.aw → ¬ s.AdmitsRange a d.length → step s = .refused .notAdmitted)) ∧
    ∀ a n, (s.busy = true → Untouched s.rangesWritten a n) → s.host = .load a n :: rest →
      (2 ^ Config.aw < a + n → step s = .fault .outsideMemory) ∧
      (a + n ≤ 2 ^ Config.aw → ¬ s.AdmitsRange a n → step s = .refused .notAdmitted)

/-- R47, R69: what the host stores in admitted memory, a following load returns. -/
def Obligations.HostLoadReturnsWhatWasStored : Prop :=
  ∀ (s : State) (a : Nat) (d : List Byte) (rest : List HostMove), s.busy = false →
    s.host = .store a d :: .load a d.length :: rest → a + d.length ≤ 2 ^ Config.aw → s.AdmitsRange a d.length →
    ∃ t u, step s = .next t ∧ step t = .next u ∧ u.reads = s.reads ++ [.data d] ∧ u.host = rest ∧
      (∀ x, ¬ (a ≤ x ∧ x < a + d.length) → u.mem.read x = s.mem.read x) ∧
      u = { s with mem := u.mem, host := rest, reads := u.reads }

/-! ### Issue and steps -/

/-- R68: a host write to CMD while idle latches the word and sets BUSY, and does nothing else. -/
def Obligations.CmdWriteIssuesCommand : Prop :=
  ∀ (s : State) (w : CmdWord) (rest : List HostMove), s.busy = false → s.host = .write 8 (.number w.toNat) :: rest →
    step s = .next { s with host := rest, cmd := w, busy := true }

/-- R68, R24, R215: while a command is in flight nothing it will read, and none of the bytes it will write, changes, so that the
operands it reads when it runs are those at issue, which is how the model samples them (log 20). -/
def Obligations.CommandInFlightKeepsItsOperands : Prop :=
  ∀ s t : State, s.busy = true → step s = .next t → t.busy = true →
    t.ctr = s.ctr ∧ s.SameOperands t ∧ t.sched = s.sched ∧ t.schedV = s.schedV ∧ t.cmd = s.cmd ∧ t.ks = s.ks ∧
    t.keyLens = s.keyLens ∧ t.port = s.port ∧
    ∀ u ∈ s.rangesRead ++ s.rangesWritten, ∀ x, u.holds x = true → t.mem.read x = s.mem.read x

/-- A step runs the decoded command: with a command in flight and the CORE to move (no host move left, or a `wait`, which is used
up), the step is the command's execution. -/
def Obligations.StepRunsDecodedCommand : Prop :=
  ∀ (s : State) (i : Instr), s.busy = true → (s.host = [] ∨ ∃ rest, s.host = .wait :: rest) →
    decode s.cmd = .command i → step s = exec i { s with host := s.host.tail }

/-- Where a word is put for the next step to run it: the state just after its issue. -/
def Obligations.FetchWordRunsNext : Prop :=
  ∀ (s : State) (w : Nat) (i : Instr), decodeTableWord 32 w = some i → w < 2 ^ 32 →
    step (s.withFetchWord 32 w) = exec i { s with cmd := BitVec.ofNat 32 w, busy := true }

/-- R195: idle is a resting state, and a CMD write is the only thing that starts work. -/
def Obligations.OnlyCmdWriteStartsWork : Prop :=
  (∀ s : State, s.busy = false → s.host = [] → step s = .next s) ∧
  ∀ s t : State, step s = .next t → s.busy = false → t.busy = true →
    ∃ w rest, s.host = .write 8 (.number w) :: rest ∧ w < 2 ^ 32

/-! ### Reset -/

/-- R211, the values the spec gives: after reset the CORE is idle, STATUS reads 0, and GEN and XFORM raise NoSchedule. -/
def Obligations.ResetLeavesIdleStatusZero : Prop :=
  statusWord State.reset = 0 ∧ State.reset.busy = false ∧ State.reset.schedV = false ∧ State.reset.err = .ok ∧
  exec .gen State.reset = .next { State.reset with err := .noSchedule } ∧
  exec .xform State.reset = .next { State.reset with err := .noSchedule }

/-- R210, R211: the reset input while idle: STATUS reads 0, data memory, port and the platform are not touched. -/
def Obligations.ResetInputWhileIdle : Prop :=
  ∀ (s : State) (rest : List HostMove), s.busy = false → s.host = .reset :: rest →
    ∃ t, step s = .next t ∧ statusWord t = 0 ∧ t.mem = s.mem ∧ t.port = s.port ∧ t.unmapped = s.unmapped ∧
      t.keyLens = s.keyLens ∧ t.reads = s.reads ∧ t.host = rest ∧ exec .gen t = .next { t with err := .noSchedule }

/-- R212: reset during a command abandons it: STATUS reads 0, every byte of the destination range of a transform holds its old
value or the value R117 gives it, and no other byte has changed. Which bytes have landed is free (log 16). -/
def Obligations.ResetDuringCommandAbandonsIt : Prop :=
  ∀ (s u : State) (rest : List HostMove), s.busy = true → s.host = .reset :: rest →
    runCommand { s with host := rest } = .next u →
    ∃ t, step s = .next t ∧ statusWord t = 0 ∧ t.host = rest ∧ t.unmapped = s.unmapped ∧ t.keyLens = s.keyLens ∧
      (∀ a, ¬ (s.dst.toNat ≤ a ∧ a < s.dst.toNat + s.len.toNat) → t.mem.read a = s.mem.read a) ∧
      (∀ a, t.mem.read a = s.mem.read a ∨ t.mem.read a = u.mem.read a) ∧
      (decode s.cmd ≠ .command .xform → decode s.cmd ≠ .command .encrypt → t.mem = s.mem) ∧
      ∀ p < s.len.toNat,
        (decode s.cmd = .command .xform → t.mem.read (s.dst.toNat + p) = s.mem.read (s.dst.toNat + p) ∨
          t.mem.read (s.dst.toNat + p) = s.mem.read (s.src.toNat + p) ^^^
            byteAt (Config.encryptBlock s.sched (incTimes (p / 16) s.ctr)) (p % 16)) ∧
        (decode s.cmd = .command .encrypt → t.mem.read (s.dst.toNat + p) = s.mem.read (s.dst.toNat + p) ∨
          t.mem.read (s.dst.toNat + p) = s.mem.read (s.src.toNat + p) ^^^
            byteAt (Config.encryptBlock s.derivedSchedule (incTimes (p / 16) s.ctr)) (p % 16))

/-- R51 (b), (c) and (d) at a reset during a command: the abandoned command has made the first few of its port transactions, and every
byte of the destination range that has changed has its `BC.ENC`, and in ENCRYPT the `BC.SETUP`, among them. How many were made is
free (log 16). -/
def Obligations.LandedBytesHaveTheirTransactions : Prop :=
  ∀ (s u : State) (rest : List HostMove), s.busy = true → s.host = .reset :: rest →
    runCommand { s with host := rest } = .next u →
    ∃ t made, step s = .next t ∧ t.port = s.port ++ made ∧ made <+: u.port.drop s.port.length ∧
      ∀ p < s.len.toNat, t.mem.read (s.dst.toNat + p) ≠ s.mem.read (s.dst.toNat + p) →
        (decode s.cmd = .command .xform ∧ .enc s.sched (incTimes (p / 16) s.ctr) ∈ made) ∨
        (decode s.cmd = .command .encrypt ∧ s.setupEvent ∈ made ∧ .enc s.derivedSchedule (incTimes (p / 16) s.ctr) ∈ made)
end

