-- ==== Sys2Proof/Laws/Bytes.lean ====
section
/-! SUPPORT. Bytes of arrays and big-endian numbers. -/

namespace Sys2Proof.Machine

theorem byteAt_of_lt {n : Nat} (b : Vector Byte n) (k : Nat) (h : k < n) : byteAt b k = b[k] := by
  simp [byteAt, h]

theorem byteAt_ext {n : Nat} (a b : Vector Byte n) (h : ∀ k < n, byteAt a k = byteAt b k) : a = b := by
  apply Vector.ext
  intro k hk
  have := h k hk
  rwa [byteAt_of_lt a k hk, byteAt_of_lt b k hk] at this

theorem byteAt_ofFn {n : Nat} (f : Fin n → Byte) (k : Nat) (h : k < n) : byteAt (Vector.ofFn f) k = f ⟨k, h⟩ := by
  simp [byteAt, h]

theorem byteAt_setIfInBounds {n : Nat} (b : Vector Byte n) (i k : Nat) (v : Byte) (hi : i < n) :
    byteAt (b.setIfInBounds i v) k = if k = i then v else byteAt b k := by
  unfold byteAt
  rw [Vector.getElem?_setIfInBounds]
  by_cases h : i = k
  · subst h
    simp [hi]
  · simp [h, Ne.symm h]

theorem byteAt_append {m n : Nat} (a : Vector Byte m) (b : Vector Byte n) (k : Nat) :
    byteAt (a ++ b) k = if k < m then byteAt a k else byteAt b (k - m) := by
  unfold byteAt
  rw [Vector.getElem?_append]
  split <;> rfl

theorem byteAt_zeroBlock (k : Nat) : byteAt zeroBlock k = 0#8 := by
  by_cases h : k < 16
  · simp [byteAt, zeroBlock, h]
  · simp [byteAt, zeroBlock, h]

theorem beNum_congr (f g : Nat → Byte) (n : Nat) (h : ∀ k < n, f k = g k) : beNum f n = beNum g n := by
  induction n with
  | zero => rfl
  | succ n ih => rw [beNum, beNum, ih fun k hk => h k (by omega), h n (by omega)]

theorem beNum_lt (f : Nat → Byte) (n : Nat) : beNum f n < 256 ^ n := by
  induction n with
  | zero => exact Nat.one_pos
  | succ n ih =>
    have h := (f n).isLt
    rw [beNum, Nat.pow_succ]
    omega

/-- A big-endian number determines its bytes. -/
theorem beNum_inj (f g : Nat → Byte) (n : Nat) (h : beNum f n = beNum g n) : ∀ k < n, f k = g k := by
  induction n with
  | zero => exact fun k hk => absurd hk (Nat.not_lt_zero k)
  | succ n ih =>
    have hf := (f n).isLt
    have hg := (g n).isLt
    rw [beNum, beNum] at h
    intro k hk
    rcases Nat.lt_succ_iff_lt_or_eq.mp hk with hk | rfl
    · exact ih (by omega) k hk
    · exact BitVec.eq_of_toNat_eq (by omega)

/-- A big-endian number in two parts. -/
theorem beNum_add (f : Nat → Byte) (m n : Nat) :
    beNum f (m + n) = beNum f m * 256 ^ n + beNum (fun k => f (m + k)) n := by
  induction n with
  | zero => simp [beNum]
  | succ n ih =>
    rw [← Nat.add_assoc, beNum, ih, beNum, Nat.pow_succ]
    ring

/-- The first bytes of the big-endian form of `v`. -/
theorem beNum_beByte (v n k : Nat) (hk : k ≤ n) : beNum (beByte n v) k = v / 256 ^ (n - k) % 256 ^ k := by
  induction k with
  | zero => simp [beNum, Nat.mod_one]
  | succ k ih =>
    have h1 : n - k = (n - (k + 1)) + 1 := by omega
    have h2 : n - 1 - k = n - (k + 1) := by omega
    rw [beNum, ih (by omega), beByte, BitVec.toNat_ofNat, h1, h2, Nat.pow_succ 256 (n - (k + 1)),
      ← Nat.div_div_eq_div_mul, Nat.pow_succ' (n := k), Nat.mod_mul]
    omega

theorem be64_bytes64 (w : Nat) : be64 (bytes64 w) = w % 2 ^ 64 := by
  have h : be64 (bytes64 w) = beNum (beByte 8 w) 8 :=
    beNum_congr _ _ 8 fun k hk => byteAt_ofFn _ k hk
  rw [h, beNum_beByte w 8 8 (Nat.le_refl 8)]
  norm_num

theorem val128_bytes128 (v : Nat) : val128 (bytes128 v) = v % 2 ^ 128 := by
  have h : val128 (bytes128 v) = beNum (beByte 16 v) 16 :=
    beNum_congr _ _ 16 fun k hk => byteAt_ofFn _ k hk
  rw [h, beNum_beByte v 16 16 (Nat.le_refl 16)]
  norm_num

theorem be64_lt (b : Vector Byte 8) : be64 b < 2 ^ 64 := Nat.lt_of_lt_of_eq (beNum_lt _ 8) (by norm_num)

theorem val128_lt (c : Block) : val128 c < 2 ^ 128 := Nat.lt_of_lt_of_eq (beNum_lt _ 16) (by norm_num)

/-- A counter is determined by its value. -/
theorem val128_inj (c d : Block) (h : val128 c = val128 d) : c = d :=
  byteAt_ext c d (beNum_inj _ _ 16 h)

theorem be64_highBytes (c : Block) : be64 (highBytes c) = beNum (byteAt c) 8 :=
  beNum_congr _ _ 8 fun k hk => byteAt_ofFn _ k hk

theorem be64_lowBytes (c : Block) : be64 (lowBytes c) = beNum (fun k => byteAt c (8 + k)) 8 :=
  beNum_congr _ _ 8 fun k hk => byteAt_ofFn _ k hk

/-- A block made of two words has these words. -/
theorem highBytes_append (h l : Vector Byte 8) : highBytes (h ++ l) = h := by
  apply byteAt_ext
  intro k hk
  rw [highBytes, byteAt_ofFn _ k hk]
  exact (byteAt_append h l k).trans (if_pos hk)

theorem lowBytes_append (h l : Vector Byte 8) : lowBytes (h ++ l) = l := by
  apply byteAt_ext
  intro k hk
  rw [lowBytes, byteAt_ofFn _ k hk]
  refine (byteAt_append h l (8 + k)).trans ((if_neg (by omega)).trans ?_)
  rw [Nat.add_sub_cancel_left]

end Sys2Proof.Machine
end

