-- ==== Sys2Proof/Laws/Config.lean ====
section
/-! SUPPORT. What is known of the parameters: the bounds of R6. -/

namespace Sys2Proof

theorem Config.aw_pos : 0 < Config.aw := Nat.succ_pos _

theorem Config.five_le_lenw : 5 ≤ Config.lenw := Nat.le_add_left _ _

theorem Config.two_le_space : 2 ≤ 2 ^ Config.aw :=
  Nat.le_trans (by decide) (Nat.pow_le_pow_right (by decide) Config.aw_pos)

theorem Config.lenw_space : 32 ≤ 2 ^ Config.lenw :=
  Nat.le_trans (by decide) (Nat.pow_le_pow_right (by decide) Config.five_le_lenw)

end Sys2Proof
end

