-- ==== Sys2Proof/Laws/Counter.lean ====
section
/-! SUPPORT. What the increment loop and the two-word addition do to the value and to the bytes. -/

namespace Sys2Proof.Machine

theorem byte_add_one_eq_zero (b : Byte) : b + 1#8 = 0#8 ↔ b.toNat = 255 := by
  constructor
  · intro h
    have := congrArg BitVec.toNat h
    simp at this
    omega
  · intro h
    apply BitVec.eq_of_toNat_eq
    simp [h]

/-- The loop leaves the bytes from `k` on alone. -/
theorem byteAt_incFrom_ge (k : Nat) : ∀ (c : Block) (j : Nat), k ≤ 16 → k ≤ j → byteAt (incFrom k c) j = byteAt c j := by
  induction k with
  | zero => exact fun c j _ _ => rfl
  | succ k ih =>
    intro c j hk hj
    simp only [incFrom]
    split
    · rw [ih _ j (by omega) (by omega), byteAt_setIfInBounds c k j _ (by omega), if_neg (by omega)]
    · rw [byteAt_setIfInBounds c k j _ (by omega), if_neg (by omega)]

/-- The loop adds one to the number its `k` bytes make, modulo `256^k`. -/
theorem beNum_incFrom (k : Nat) :
    ∀ c : Block, k ≤ 16 → beNum (byteAt (incFrom k c)) k = (beNum (byteAt c) k + 1) % 256 ^ k := by
  induction k with
  | zero => exact fun c _ => (Nat.mod_one _).symm
  | succ k ih =>
    intro c hk
    have hlow : ∀ v : Byte, beNum (byteAt (c.setIfInBounds k v)) k = beNum (byteAt c) k := fun v =>
      beNum_congr _ _ k fun j hj => by rw [byteAt_setIfInBounds c k j v (by omega), if_neg (by omega)]
    have hlt := beNum_lt (byteAt c) k
    simp only [incFrom]
    split
    next h0 =>
      have hb := (byte_add_one_eq_zero _).mp h0
      rw [beNum, ih _ (by omega), hlow, byteAt_incFrom_ge k _ k (by omega) (Nat.le_refl k),
        byteAt_setIfInBounds c k k _ (by omega), if_pos rfl, h0, beNum, hb, Nat.pow_succ]
      have : beNum (byteAt c) k * 256 + 255 + 1 = (beNum (byteAt c) k + 1) * 256 := by ring
      rw [this, Nat.mul_mod_mul_right]
      simp
    next h0 =>
      have hb : (byteAt c k).toNat ≠ 255 := fun e => h0 ((byte_add_one_eq_zero _).mpr e)
      have hbl := (byteAt c k).isLt
      have hv : (byteAt c k + 1#8).toNat = (byteAt c k).toNat + 1 := by
        rw [BitVec.toNat_add, BitVec.toNat_ofNat]
        omega
      rw [beNum, hlow, byteAt_setIfInBounds c k k _ (by omega), if_pos rfl, hv, beNum, Nat.pow_succ,
        Nat.mod_eq_of_lt (by omega)]
      omega

/-- `n` more increments after `m`. -/
theorem incTimes_add (m n : Nat) (c : Block) : incTimes (m + n) c = incTimes n (incTimes m c) := by
  induction n with
  | zero => rfl
  | succ n ih =>
    show inc128 (incTimes (m + n) c) = inc128 (incTimes n (incTimes m c))
    rw [ih]

theorem inc128_incTimes (n : Nat) (c : Block) : inc128 (incTimes n c) = incTimes n (inc128 c) := by
  rw [show inc128 (incTimes n c) = incTimes (n + 1) c from rfl, Nat.add_comm n 1, incTimes_add]
  rfl

/-- The words of a sum (the word form of R82). -/
theorem be64_highBytes_add128 (c : Block) (n : Nat) :
    be64 (highBytes (add128 c n)) =
      (be64 (highBytes c) + (be64 (lowBytes c) + n) / 2 ^ 64) % 2 ^ 64 := by
  simp only [add128]
  rw [highBytes_append, be64_bytes64, Nat.mod_mod]

theorem be64_lowBytes_add128 (c : Block) (n : Nat) :
    be64 (lowBytes (add128 c n)) = (be64 (lowBytes c) + n) % 2 ^ 64 := by
  simp only [add128]
  rw [lowBytes_append, be64_bytes64, Nat.mod_mod]

end Sys2Proof.Machine
end

