-- ==== Sys2Proof/Laws/State.lean ====
section
/-! SUPPORT. What each named update does to each field of State: one lemma a field and update, so that no later proof unfolds a
record update. -/

namespace Sys2Proof.Machine

variable (s : State)

@[simp] theorem State.complete_ctr : s.complete.ctr = s.ctr := rfl
@[simp] theorem State.complete_ks : s.complete.ks = s.ks := rfl
@[simp] theorem State.complete_n : s.complete.n = s.n := rfl
@[simp] theorem State.complete_src : s.complete.src = s.src := rfl
@[simp] theorem State.complete_dst : s.complete.dst = s.dst := rfl
@[simp] theorem State.complete_len : s.complete.len = s.len := rfl
@[simp] theorem State.complete_keyAddr : s.complete.keyAddr = s.keyAddr := rfl
@[simp] theorem State.complete_keyLen : s.complete.keyLen = s.keyLen := rfl
@[simp] theorem State.complete_cmd : s.complete.cmd = s.cmd := rfl
@[simp] theorem State.complete_busy : s.complete.busy = false := rfl
@[simp] theorem State.complete_schedV : s.complete.schedV = s.schedV := rfl
@[simp] theorem State.complete_err : s.complete.err = .ok := rfl
@[simp] theorem State.complete_sched : s.complete.sched = s.sched := rfl
@[simp] theorem State.complete_wc : s.complete.wc = s.wc := rfl
@[simp] theorem State.complete_idx : s.complete.idx = s.idx := rfl
@[simp] theorem State.complete_mem : s.complete.mem = s.mem := rfl
@[simp] theorem State.complete_unmapped : s.complete.unmapped = s.unmapped := rfl
@[simp] theorem State.complete_keyLens : s.complete.keyLens = s.keyLens := rfl
@[simp] theorem State.complete_port : s.complete.port = s.port := rfl
@[simp] theorem State.complete_host : s.complete.host = s.host := rfl
@[simp] theorem State.complete_reads : s.complete.reads = s.reads := rfl
@[simp] theorem State.complete_draws : s.complete.draws = s.draws := rfl

@[simp] theorem State.raise_ctr (e : ErrCode) : (s.raise e).ctr = s.ctr := rfl
@[simp] theorem State.raise_ks (e : ErrCode) : (s.raise e).ks = s.ks := rfl
@[simp] theorem State.raise_n (e : ErrCode) : (s.raise e).n = s.n := rfl
@[simp] theorem State.raise_src (e : ErrCode) : (s.raise e).src = s.src := rfl
@[simp] theorem State.raise_dst (e : ErrCode) : (s.raise e).dst = s.dst := rfl
@[simp] theorem State.raise_len (e : ErrCode) : (s.raise e).len = s.len := rfl
@[simp] theorem State.raise_keyAddr (e : ErrCode) : (s.raise e).keyAddr = s.keyAddr := rfl
@[simp] theorem State.raise_keyLen (e : ErrCode) : (s.raise e).keyLen = s.keyLen := rfl
@[simp] theorem State.raise_cmd (e : ErrCode) : (s.raise e).cmd = s.cmd := rfl
@[simp] theorem State.raise_busy (e : ErrCode) : (s.raise e).busy = false := rfl
@[simp] theorem State.raise_schedV (e : ErrCode) : (s.raise e).schedV = s.schedV := rfl
@[simp] theorem State.raise_err (e : ErrCode) : (s.raise e).err = e := rfl
@[simp] theorem State.raise_sched (e : ErrCode) : (s.raise e).sched = s.sched := rfl
@[simp] theorem State.raise_wc (e : ErrCode) : (s.raise e).wc = s.wc := rfl
@[simp] theorem State.raise_idx (e : ErrCode) : (s.raise e).idx = s.idx := rfl
@[simp] theorem State.raise_mem (e : ErrCode) : (s.raise e).mem = s.mem := rfl
@[simp] theorem State.raise_unmapped (e : ErrCode) : (s.raise e).unmapped = s.unmapped := rfl
@[simp] theorem State.raise_keyLens (e : ErrCode) : (s.raise e).keyLens = s.keyLens := rfl
@[simp] theorem State.raise_port (e : ErrCode) : (s.raise e).port = s.port := rfl
@[simp] theorem State.raise_host (e : ErrCode) : (s.raise e).host = s.host := rfl
@[simp] theorem State.raise_reads (e : ErrCode) : (s.raise e).reads = s.reads := rfl
@[simp] theorem State.raise_draws (e : ErrCode) : (s.raise e).draws = s.draws := rfl

@[simp] theorem State.dropSchedule_ctr : s.dropSchedule.ctr = s.ctr := rfl
@[simp] theorem State.dropSchedule_ks : s.dropSchedule.ks = s.ks := rfl
@[simp] theorem State.dropSchedule_n : s.dropSchedule.n = s.n := rfl
@[simp] theorem State.dropSchedule_src : s.dropSchedule.src = s.src := rfl
@[simp] theorem State.dropSchedule_dst : s.dropSchedule.dst = s.dst := rfl
@[simp] theorem State.dropSchedule_len : s.dropSchedule.len = s.len := rfl
@[simp] theorem State.dropSchedule_keyAddr : s.dropSchedule.keyAddr = s.keyAddr := rfl
@[simp] theorem State.dropSchedule_keyLen : s.dropSchedule.keyLen = s.keyLen := rfl
@[simp] theorem State.dropSchedule_cmd : s.dropSchedule.cmd = s.cmd := rfl
@[simp] theorem State.dropSchedule_busy : s.dropSchedule.busy = s.busy := rfl
@[simp] theorem State.dropSchedule_schedV : s.dropSchedule.schedV = false := rfl
@[simp] theorem State.dropSchedule_err : s.dropSchedule.err = s.err := rfl
@[simp] theorem State.dropSchedule_sched : s.dropSchedule.sched = Config.freeSchedule .sched s.draws := rfl
@[simp] theorem State.dropSchedule_wc : s.dropSchedule.wc = s.wc := rfl
@[simp] theorem State.dropSchedule_idx : s.dropSchedule.idx = s.idx := rfl
@[simp] theorem State.dropSchedule_mem : s.dropSchedule.mem = s.mem := rfl
@[simp] theorem State.dropSchedule_unmapped : s.dropSchedule.unmapped = s.unmapped := rfl
@[simp] theorem State.dropSchedule_keyLens : s.dropSchedule.keyLens = s.keyLens := rfl
@[simp] theorem State.dropSchedule_port : s.dropSchedule.port = s.port := rfl
@[simp] theorem State.dropSchedule_host : s.dropSchedule.host = s.host := rfl
@[simp] theorem State.dropSchedule_reads : s.dropSchedule.reads = s.reads := rfl
@[simp] theorem State.dropSchedule_draws : s.dropSchedule.draws = s.draws + 1 := rfl

@[simp] theorem State.resetCore_ctr (d : DataRegs) : (s.resetCore d).ctr = d.ctr := rfl
@[simp] theorem State.resetCore_ks (d : DataRegs) : (s.resetCore d).ks = d.ks := rfl
@[simp] theorem State.resetCore_n (d : DataRegs) : (s.resetCore d).n = d.n := rfl
@[simp] theorem State.resetCore_src (d : DataRegs) : (s.resetCore d).src = d.src := rfl
@[simp] theorem State.resetCore_dst (d : DataRegs) : (s.resetCore d).dst = d.dst := rfl
@[simp] theorem State.resetCore_len (d : DataRegs) : (s.resetCore d).len = d.len := rfl
@[simp] theorem State.resetCore_keyAddr (d : DataRegs) : (s.resetCore d).keyAddr = d.keyAddr := rfl
@[simp] theorem State.resetCore_keyLen (d : DataRegs) : (s.resetCore d).keyLen = d.keyLen := rfl
@[simp] theorem State.resetCore_cmd (d : DataRegs) : (s.resetCore d).cmd = 0#32 := rfl
@[simp] theorem State.resetCore_busy (d : DataRegs) : (s.resetCore d).busy = false := rfl
@[simp] theorem State.resetCore_schedV (d : DataRegs) : (s.resetCore d).schedV = false := rfl
@[simp] theorem State.resetCore_err (d : DataRegs) : (s.resetCore d).err = .ok := rfl
@[simp] theorem State.resetCore_sched (d : DataRegs) : (s.resetCore d).sched = d.sched := rfl
@[simp] theorem State.resetCore_wc (d : DataRegs) : (s.resetCore d).wc = d.wc := rfl
@[simp] theorem State.resetCore_idx (d : DataRegs) : (s.resetCore d).idx = d.idx := rfl
@[simp] theorem State.resetCore_mem (d : DataRegs) : (s.resetCore d).mem = s.mem := rfl
@[simp] theorem State.resetCore_unmapped (d : DataRegs) : (s.resetCore d).unmapped = s.unmapped := rfl
@[simp] theorem State.resetCore_keyLens (d : DataRegs) : (s.resetCore d).keyLens = s.keyLens := rfl
@[simp] theorem State.resetCore_port (d : DataRegs) : (s.resetCore d).port = s.port := rfl
@[simp] theorem State.resetCore_host (d : DataRegs) : (s.resetCore d).host = s.host := rfl
@[simp] theorem State.resetCore_reads (d : DataRegs) : (s.resetCore d).reads = s.reads := rfl
@[simp] theorem State.resetCore_draws (d : DataRegs) : (s.resetCore d).draws = s.draws := rfl

@[simp] theorem State.assertReset_ctr : s.assertReset.ctr = (freeDataRegs s.draws).ctr := rfl
@[simp] theorem State.assertReset_ks : s.assertReset.ks = (freeDataRegs s.draws).ks := rfl
@[simp] theorem State.assertReset_n : s.assertReset.n = (freeDataRegs s.draws).n := rfl
@[simp] theorem State.assertReset_src : s.assertReset.src = (freeDataRegs s.draws).src := rfl
@[simp] theorem State.assertReset_dst : s.assertReset.dst = (freeDataRegs s.draws).dst := rfl
@[simp] theorem State.assertReset_len : s.assertReset.len = (freeDataRegs s.draws).len := rfl
@[simp] theorem State.assertReset_keyAddr : s.assertReset.keyAddr = (freeDataRegs s.draws).keyAddr := rfl
@[simp] theorem State.assertReset_keyLen : s.assertReset.keyLen = (freeDataRegs s.draws).keyLen := rfl
@[simp] theorem State.assertReset_cmd : s.assertReset.cmd = 0#32 := rfl
@[simp] theorem State.assertReset_busy : s.assertReset.busy = false := rfl
@[simp] theorem State.assertReset_schedV : s.assertReset.schedV = false := rfl
@[simp] theorem State.assertReset_err : s.assertReset.err = .ok := rfl
@[simp] theorem State.assertReset_sched : s.assertReset.sched = (freeDataRegs s.draws).sched := rfl
@[simp] theorem State.assertReset_wc : s.assertReset.wc = (freeDataRegs s.draws).wc := rfl
@[simp] theorem State.assertReset_idx : s.assertReset.idx = (freeDataRegs s.draws).idx := rfl
@[simp] theorem State.assertReset_mem : s.assertReset.mem = s.mem := rfl
@[simp] theorem State.assertReset_unmapped : s.assertReset.unmapped = s.unmapped := rfl
@[simp] theorem State.assertReset_keyLens : s.assertReset.keyLens = s.keyLens := rfl
@[simp] theorem State.assertReset_port : s.assertReset.port = s.port := rfl
@[simp] theorem State.assertReset_host : s.assertReset.host = s.host := rfl
@[simp] theorem State.assertReset_reads : s.assertReset.reads = s.reads := rfl
@[simp] theorem State.assertReset_draws : s.assertReset.draws = s.draws + 1 := rfl

@[simp] theorem State.generated_ctr : s.generated.ctr = s.ctr := rfl
@[simp] theorem State.generated_ks : s.generated.ks = Config.encryptBlock s.sched s.ctr := rfl
@[simp] theorem State.generated_n : s.generated.n = s.n := rfl
@[simp] theorem State.generated_src : s.generated.src = s.src := rfl
@[simp] theorem State.generated_dst : s.generated.dst = s.dst := rfl
@[simp] theorem State.generated_len : s.generated.len = s.len := rfl
@[simp] theorem State.generated_keyAddr : s.generated.keyAddr = s.keyAddr := rfl
@[simp] theorem State.generated_keyLen : s.generated.keyLen = s.keyLen := rfl
@[simp] theorem State.generated_cmd : s.generated.cmd = s.cmd := rfl
@[simp] theorem State.generated_busy : s.generated.busy = s.busy := rfl
@[simp] theorem State.generated_schedV : s.generated.schedV = s.schedV := rfl
@[simp] theorem State.generated_err : s.generated.err = s.err := rfl
@[simp] theorem State.generated_sched : s.generated.sched = s.sched := rfl
@[simp] theorem State.generated_wc : s.generated.wc = s.wc := rfl
@[simp] theorem State.generated_idx : s.generated.idx = s.idx := rfl
@[simp] theorem State.generated_mem : s.generated.mem = s.mem := rfl
@[simp] theorem State.generated_unmapped : s.generated.unmapped = s.unmapped := rfl
@[simp] theorem State.generated_keyLens : s.generated.keyLens = s.keyLens := rfl
@[simp] theorem State.generated_port : s.generated.port = s.port ++ [.enc s.sched s.ctr] := rfl
@[simp] theorem State.generated_host : s.generated.host = s.host := rfl
@[simp] theorem State.generated_reads : s.generated.reads = s.reads := rfl
@[simp] theorem State.generated_draws : s.generated.draws = s.draws := rfl

@[simp] theorem State.transformed_ctr (k : Schedule) : (s.transformed k).ctr = s.ctr := rfl
@[simp] theorem State.transformed_ks (k : Schedule) : (s.transformed k).ks = if s.len.toNat = 0 then s.ks else Config.freeBlock .ks s.draws := rfl
@[simp] theorem State.transformed_n (k : Schedule) : (s.transformed k).n = s.n := rfl
@[simp] theorem State.transformed_src (k : Schedule) : (s.transformed k).src = s.src := rfl
@[simp] theorem State.transformed_dst (k : Schedule) : (s.transformed k).dst = s.dst := rfl
@[simp] theorem State.transformed_len (k : Schedule) : (s.transformed k).len = s.len := rfl
@[simp] theorem State.transformed_keyAddr (k : Schedule) : (s.transformed k).keyAddr = s.keyAddr := rfl
@[simp] theorem State.transformed_keyLen (k : Schedule) : (s.transformed k).keyLen = s.keyLen := rfl
@[simp] theorem State.transformed_cmd (k : Schedule) : (s.transformed k).cmd = s.cmd := rfl
@[simp] theorem State.transformed_busy (k : Schedule) : (s.transformed k).busy = s.busy := rfl
@[simp] theorem State.transformed_schedV (k : Schedule) : (s.transformed k).schedV = s.schedV := rfl
@[simp] theorem State.transformed_err (k : Schedule) : (s.transformed k).err = s.err := rfl
@[simp] theorem State.transformed_sched (k : Schedule) : (s.transformed k).sched = s.sched := rfl
@[simp] theorem State.transformed_wc (k : Schedule) : (s.transformed k).wc = Config.freeBlock .wc s.draws := rfl
@[simp] theorem State.transformed_idx (k : Schedule) : (s.transformed k).idx = Config.freeBits .index s.draws (Config.lenw - 4) := rfl
@[simp] theorem State.transformed_mem (k : Schedule) : (s.transformed k).mem = (s.xferEnd k).mem := rfl
@[simp] theorem State.transformed_unmapped (k : Schedule) : (s.transformed k).unmapped = s.unmapped := rfl
@[simp] theorem State.transformed_keyLens (k : Schedule) : (s.transformed k).keyLens = s.keyLens := rfl
@[simp] theorem State.transformed_port (k : Schedule) : (s.transformed k).port = (s.xferEnd k).port := rfl
@[simp] theorem State.transformed_host (k : Schedule) : (s.transformed k).host = s.host := rfl
@[simp] theorem State.transformed_reads (k : Schedule) : (s.transformed k).reads = s.reads := rfl
@[simp] theorem State.transformed_draws (k : Schedule) : (s.transformed k).draws = s.draws + 1 := rfl

@[simp] theorem State.issue_ctr (w : CmdWord) : (s.issue w).ctr = s.ctr := rfl
@[simp] theorem State.issue_ks (w : CmdWord) : (s.issue w).ks = s.ks := rfl
@[simp] theorem State.issue_n (w : CmdWord) : (s.issue w).n = s.n := rfl
@[simp] theorem State.issue_src (w : CmdWord) : (s.issue w).src = s.src := rfl
@[simp] theorem State.issue_dst (w : CmdWord) : (s.issue w).dst = s.dst := rfl
@[simp] theorem State.issue_len (w : CmdWord) : (s.issue w).len = s.len := rfl
@[simp] theorem State.issue_keyAddr (w : CmdWord) : (s.issue w).keyAddr = s.keyAddr := rfl
@[simp] theorem State.issue_keyLen (w : CmdWord) : (s.issue w).keyLen = s.keyLen := rfl
@[simp] theorem State.issue_cmd (w : CmdWord) : (s.issue w).cmd = w := rfl
@[simp] theorem State.issue_busy (w : CmdWord) : (s.issue w).busy = true := rfl
@[simp] theorem State.issue_schedV (w : CmdWord) : (s.issue w).schedV = s.schedV := rfl
@[simp] theorem State.issue_err (w : CmdWord) : (s.issue w).err = s.err := rfl
@[simp] theorem State.issue_sched (w : CmdWord) : (s.issue w).sched = s.sched := rfl
@[simp] theorem State.issue_wc (w : CmdWord) : (s.issue w).wc = s.wc := rfl
@[simp] theorem State.issue_idx (w : CmdWord) : (s.issue w).idx = s.idx := rfl
@[simp] theorem State.issue_mem (w : CmdWord) : (s.issue w).mem = s.mem := rfl
@[simp] theorem State.issue_unmapped (w : CmdWord) : (s.issue w).unmapped = s.unmapped := rfl
@[simp] theorem State.issue_keyLens (w : CmdWord) : (s.issue w).keyLens = s.keyLens := rfl
@[simp] theorem State.issue_port (w : CmdWord) : (s.issue w).port = s.port := rfl
@[simp] theorem State.issue_host (w : CmdWord) : (s.issue w).host = s.host := rfl
@[simp] theorem State.issue_reads (w : CmdWord) : (s.issue w).reads = s.reads := rfl
@[simp] theorem State.issue_draws (w : CmdWord) : (s.issue w).draws = s.draws := rfl

@[simp] theorem State.answer_ctr (v : HostValue) : (s.answer v).ctr = s.ctr := rfl
@[simp] theorem State.answer_ks (v : HostValue) : (s.answer v).ks = s.ks := rfl
@[simp] theorem State.answer_n (v : HostValue) : (s.answer v).n = s.n := rfl
@[simp] theorem State.answer_src (v : HostValue) : (s.answer v).src = s.src := rfl
@[simp] theorem State.answer_dst (v : HostValue) : (s.answer v).dst = s.dst := rfl
@[simp] theorem State.answer_len (v : HostValue) : (s.answer v).len = s.len := rfl
@[simp] theorem State.answer_keyAddr (v : HostValue) : (s.answer v).keyAddr = s.keyAddr := rfl
@[simp] theorem State.answer_keyLen (v : HostValue) : (s.answer v).keyLen = s.keyLen := rfl
@[simp] theorem State.answer_cmd (v : HostValue) : (s.answer v).cmd = s.cmd := rfl
@[simp] theorem State.answer_busy (v : HostValue) : (s.answer v).busy = s.busy := rfl
@[simp] theorem State.answer_schedV (v : HostValue) : (s.answer v).schedV = s.schedV := rfl
@[simp] theorem State.answer_err (v : HostValue) : (s.answer v).err = s.err := rfl
@[simp] theorem State.answer_sched (v : HostValue) : (s.answer v).sched = s.sched := rfl
@[simp] theorem State.answer_wc (v : HostValue) : (s.answer v).wc = s.wc := rfl
@[simp] theorem State.answer_idx (v : HostValue) : (s.answer v).idx = s.idx := rfl
@[simp] theorem State.answer_mem (v : HostValue) : (s.answer v).mem = s.mem := rfl
@[simp] theorem State.answer_unmapped (v : HostValue) : (s.answer v).unmapped = s.unmapped := rfl
@[simp] theorem State.answer_keyLens (v : HostValue) : (s.answer v).keyLens = s.keyLens := rfl
@[simp] theorem State.answer_port (v : HostValue) : (s.answer v).port = s.port := rfl
@[simp] theorem State.answer_host (v : HostValue) : (s.answer v).host = s.host := rfl
@[simp] theorem State.answer_reads (v : HostValue) : (s.answer v).reads = s.reads ++ [v] := rfl
@[simp] theorem State.answer_draws (v : HostValue) : (s.answer v).draws = s.draws := rfl

@[simp] theorem State.busyStatusRead_ctr : s.busyStatusRead.ctr = s.ctr := rfl
@[simp] theorem State.busyStatusRead_ks : s.busyStatusRead.ks = s.ks := rfl
@[simp] theorem State.busyStatusRead_n : s.busyStatusRead.n = s.n := rfl
@[simp] theorem State.busyStatusRead_src : s.busyStatusRead.src = s.src := rfl
@[simp] theorem State.busyStatusRead_dst : s.busyStatusRead.dst = s.dst := rfl
@[simp] theorem State.busyStatusRead_len : s.busyStatusRead.len = s.len := rfl
@[simp] theorem State.busyStatusRead_keyAddr : s.busyStatusRead.keyAddr = s.keyAddr := rfl
@[simp] theorem State.busyStatusRead_keyLen : s.busyStatusRead.keyLen = s.keyLen := rfl
@[simp] theorem State.busyStatusRead_cmd : s.busyStatusRead.cmd = s.cmd := rfl
@[simp] theorem State.busyStatusRead_busy : s.busyStatusRead.busy = s.busy := rfl
@[simp] theorem State.busyStatusRead_schedV : s.busyStatusRead.schedV = s.schedV := rfl
@[simp] theorem State.busyStatusRead_err : s.busyStatusRead.err = s.err := rfl
@[simp] theorem State.busyStatusRead_sched : s.busyStatusRead.sched = s.sched := rfl
@[simp] theorem State.busyStatusRead_wc : s.busyStatusRead.wc = s.wc := rfl
@[simp] theorem State.busyStatusRead_idx : s.busyStatusRead.idx = s.idx := rfl
@[simp] theorem State.busyStatusRead_mem : s.busyStatusRead.mem = s.mem := rfl
@[simp] theorem State.busyStatusRead_unmapped : s.busyStatusRead.unmapped = s.unmapped := rfl
@[simp] theorem State.busyStatusRead_keyLens : s.busyStatusRead.keyLens = s.keyLens := rfl
@[simp] theorem State.busyStatusRead_port : s.busyStatusRead.port = s.port := rfl
@[simp] theorem State.busyStatusRead_host : s.busyStatusRead.host = s.host := rfl
@[simp] theorem State.busyStatusRead_reads : s.busyStatusRead.reads = s.reads ++ [.number (busyStatusWord s).toNat] := rfl
@[simp] theorem State.busyStatusRead_draws : s.busyStatusRead.draws = s.draws + 1 := rfl

@[simp] theorem State.issued_ctr (w : CmdWord) : (s.issued w).ctr = s.ctr := rfl
@[simp] theorem State.issued_ks (w : CmdWord) : (s.issued w).ks = s.ks := rfl
@[simp] theorem State.issued_n (w : CmdWord) : (s.issued w).n = s.n := rfl
@[simp] theorem State.issued_src (w : CmdWord) : (s.issued w).src = s.src := rfl
@[simp] theorem State.issued_dst (w : CmdWord) : (s.issued w).dst = s.dst := rfl
@[simp] theorem State.issued_len (w : CmdWord) : (s.issued w).len = s.len := rfl
@[simp] theorem State.issued_keyAddr (w : CmdWord) : (s.issued w).keyAddr = s.keyAddr := rfl
@[simp] theorem State.issued_keyLen (w : CmdWord) : (s.issued w).keyLen = s.keyLen := rfl
@[simp] theorem State.issued_cmd (w : CmdWord) : (s.issued w).cmd = w := rfl
@[simp] theorem State.issued_busy (w : CmdWord) : (s.issued w).busy = true := rfl
@[simp] theorem State.issued_schedV (w : CmdWord) : (s.issued w).schedV = s.schedV := rfl
@[simp] theorem State.issued_err (w : CmdWord) : (s.issued w).err = s.err := rfl
@[simp] theorem State.issued_sched (w : CmdWord) : (s.issued w).sched = s.sched := rfl
@[simp] theorem State.issued_wc (w : CmdWord) : (s.issued w).wc = s.wc := rfl
@[simp] theorem State.issued_idx (w : CmdWord) : (s.issued w).idx = s.idx := rfl
@[simp] theorem State.issued_mem (w : CmdWord) : (s.issued w).mem = s.mem := rfl
@[simp] theorem State.issued_unmapped (w : CmdWord) : (s.issued w).unmapped = s.unmapped := rfl
@[simp] theorem State.issued_keyLens (w : CmdWord) : (s.issued w).keyLens = s.keyLens := rfl
@[simp] theorem State.issued_port (w : CmdWord) : (s.issued w).port = s.port := rfl
@[simp] theorem State.issued_host (w : CmdWord) : (s.issued w).host = .wait :: s.host := rfl
@[simp] theorem State.issued_reads (w : CmdWord) : (s.issued w).reads = s.reads := rfl
@[simp] theorem State.issued_draws (w : CmdWord) : (s.issued w).draws = s.draws := rfl

@[simp] theorem State.afterWait_ctr : s.afterWait.ctr = s.ctr := rfl
@[simp] theorem State.afterWait_ks : s.afterWait.ks = s.ks := rfl
@[simp] theorem State.afterWait_n : s.afterWait.n = s.n := rfl
@[simp] theorem State.afterWait_src : s.afterWait.src = s.src := rfl
@[simp] theorem State.afterWait_dst : s.afterWait.dst = s.dst := rfl
@[simp] theorem State.afterWait_len : s.afterWait.len = s.len := rfl
@[simp] theorem State.afterWait_keyAddr : s.afterWait.keyAddr = s.keyAddr := rfl
@[simp] theorem State.afterWait_keyLen : s.afterWait.keyLen = s.keyLen := rfl
@[simp] theorem State.afterWait_cmd : s.afterWait.cmd = s.cmd := rfl
@[simp] theorem State.afterWait_busy : s.afterWait.busy = s.busy := rfl
@[simp] theorem State.afterWait_schedV : s.afterWait.schedV = s.schedV := rfl
@[simp] theorem State.afterWait_err : s.afterWait.err = s.err := rfl
@[simp] theorem State.afterWait_sched : s.afterWait.sched = s.sched := rfl
@[simp] theorem State.afterWait_wc : s.afterWait.wc = s.wc := rfl
@[simp] theorem State.afterWait_idx : s.afterWait.idx = s.idx := rfl
@[simp] theorem State.afterWait_mem : s.afterWait.mem = s.mem := rfl
@[simp] theorem State.afterWait_unmapped : s.afterWait.unmapped = s.unmapped := rfl
@[simp] theorem State.afterWait_keyLens : s.afterWait.keyLens = s.keyLens := rfl
@[simp] theorem State.afterWait_port : s.afterWait.port = s.port := rfl
@[simp] theorem State.afterWait_host : s.afterWait.host = s.host.tail := rfl
@[simp] theorem State.afterWait_reads : s.afterWait.reads = s.reads := rfl
@[simp] theorem State.afterWait_draws : s.afterWait.draws = s.draws := rfl

@[simp] theorem State.afterRead_ctr (r : Reg) : (s.afterRead r).ctr = s.ctr := by cases r <;> rfl
@[simp] theorem State.afterRead_ks (r : Reg) : (s.afterRead r).ks = s.ks := by cases r <;> rfl
@[simp] theorem State.afterRead_n (r : Reg) : (s.afterRead r).n = s.n := by cases r <;> rfl
@[simp] theorem State.afterRead_src (r : Reg) : (s.afterRead r).src = s.src := by cases r <;> rfl
@[simp] theorem State.afterRead_dst (r : Reg) : (s.afterRead r).dst = s.dst := by cases r <;> rfl
@[simp] theorem State.afterRead_len (r : Reg) : (s.afterRead r).len = s.len := by cases r <;> rfl
@[simp] theorem State.afterRead_keyAddr (r : Reg) : (s.afterRead r).keyAddr = s.keyAddr := by cases r <;> rfl
@[simp] theorem State.afterRead_keyLen (r : Reg) : (s.afterRead r).keyLen = s.keyLen := by cases r <;> rfl
@[simp] theorem State.afterRead_cmd (r : Reg) : (s.afterRead r).cmd = s.cmd := by cases r <;> rfl
@[simp] theorem State.afterRead_busy (r : Reg) : (s.afterRead r).busy = s.busy := by cases r <;> rfl
@[simp] theorem State.afterRead_schedV (r : Reg) : (s.afterRead r).schedV = s.schedV := by cases r <;> rfl
@[simp] theorem State.afterRead_err (r : Reg) : (s.afterRead r).err = s.err := by cases r <;> rfl
@[simp] theorem State.afterRead_sched (r : Reg) : (s.afterRead r).sched = s.sched := by cases r <;> rfl
@[simp] theorem State.afterRead_wc (r : Reg) : (s.afterRead r).wc = s.wc := by cases r <;> rfl
@[simp] theorem State.afterRead_idx (r : Reg) : (s.afterRead r).idx = s.idx := by cases r <;> rfl
@[simp] theorem State.afterRead_mem (r : Reg) : (s.afterRead r).mem = s.mem := by cases r <;> rfl
@[simp] theorem State.afterRead_unmapped (r : Reg) : (s.afterRead r).unmapped = s.unmapped := by cases r <;> rfl
@[simp] theorem State.afterRead_keyLens (r : Reg) : (s.afterRead r).keyLens = s.keyLens := by cases r <;> rfl
@[simp] theorem State.afterRead_port (r : Reg) : (s.afterRead r).port = s.port := by cases r <;> rfl
@[simp] theorem State.afterRead_host (r : Reg) : (s.afterRead r).host = s.host := by cases r <;> rfl
@[simp] theorem State.afterRead_reads (r : Reg) : (s.afterRead r).reads = s.reads := by cases r <;> rfl

/-- Power-on is the same reset as any later one, with zeros as its draw (R210; log 9). -/
theorem State.reset_is_resetCore :
    State.reset = State.reset.resetCore
      ⟨zeroBlock, zeroBlock, 0, 0, 0, 0, 0, 0, ⟨[]⟩, zeroBlock, 0⟩ := rfl

end Sys2Proof.Machine
end

