-- ==== Sys2Proof/Laws/Memory.lean ====
section
/-! SUPPORT. Data memory: a read after a write, what a write leaves alone, and that every operation keeps the canonical form. -/

namespace Sys2Proof.Machine

theorem Memory.read_insert_same (m : Memory) (a : Nat) (b : Byte) (h : ∀ c ∈ m, c.1 ≠ a) :
    Memory.read (Memory.insert a b m) a = b := by
  induction m with
  | nil => simp [Memory.insert, Memory.read]
  | cons c m ih =>
    have hc := h c (by simp)
    have hm : ∀ d ∈ m, d.1 ≠ a := fun d hd => h d (by simp [hd])
    unfold Memory.insert
    split
    · simp [Memory.read]
    · simp [Memory.read, hc, ih hm]

theorem Memory.read_insert_other (m : Memory) (a x : Nat) (b : Byte) (h : x ≠ a) :
    Memory.read (Memory.insert a b m) x = Memory.read m x := by
  induction m with
  | nil => simp [Memory.insert, Memory.read, h.symm]
  | cons c m ih =>
    unfold Memory.insert
    split
    · simp [Memory.read, h.symm]
    · simp [Memory.read, ih]

theorem Memory.read_erase_same (m : Memory) (a : Nat) : Memory.read (m.erase a) a = Memory.unlisted := by
  induction m with
  | nil => rfl
  | cons c m ih =>
    unfold Memory.erase at ih ⊢
    by_cases h : c.1 = a
    · simpa [List.filter_cons, h] using ih
    · simp [h, Memory.read, ih]

theorem Memory.read_erase_other (m : Memory) (a x : Nat) (h : x ≠ a) :
    Memory.read (m.erase a) x = Memory.read m x := by
  induction m with
  | nil => rfl
  | cons c m ih =>
    unfold Memory.erase at ih ⊢
    by_cases hc : c.1 = a
    · have hx : c.1 ≠ x := fun e => h (e.symm.trans hc)
      simp [hc, Memory.read, ih, h.symm]
    · simp [hc, Memory.read, ih]

theorem Memory.ne_of_mem_erase (m : Memory) (a : Nat) : ∀ c ∈ m.erase a, c.1 ≠ a := by
  intro c hc
  simpa using (List.mem_filter.mp hc).2

/-- A byte of memory after a write: the byte written at its address, the old byte everywhere else. Of every memory, canonical or
not. -/
theorem Memory.read_write (m : Memory) (a x : Nat) (b : Byte) :
    (m.write a b).read x = if x = a then b else m.read x := by
  unfold Memory.write
  by_cases hx : x = a
  · subst hx
    split
    next hb => simp [Memory.read_erase_same, hb]
    next => simp [Memory.read_insert_same _ _ _ (Memory.ne_of_mem_erase m x)]
  · split
    · simp [Memory.read_erase_other _ _ _ hx]
    · simp [Memory.read_insert_other _ _ _ _ hx, Memory.read_erase_other _ _ _ hx]

theorem Memory.mem_insert (m : Memory) (a : Nat) (b : Byte) (c : Host.Cell) :
    c ∈ Memory.insert a b m ↔ c = (a, b) ∨ c ∈ m := by
  induction m with
  | nil => simp [Memory.insert]
  | cons d m ih =>
    unfold Memory.insert
    split
    · simp
    · simp only [List.mem_cons, ih]
      constructor <;> rintro (h | h | h) <;> simp [h]

theorem Memory.pairwise_insert (m : Memory) (a : Nat) (b : Byte) (h : m.Pairwise (fun c d => c.1 < d.1))
    (ha : ∀ c ∈ m, c.1 ≠ a) : (Memory.insert a b m).Pairwise (fun c d => c.1 < d.1) := by
  induction m with
  | nil => simp [Memory.insert]
  | cons c m ih =>
    have hc := ha c (by simp)
    obtain ⟨h1, h2⟩ := List.pairwise_cons.mp h
    unfold Memory.insert
    split
    next hlt =>
      refine List.pairwise_cons.mpr ⟨?_, h⟩
      intro d hd
      rcases List.mem_cons.mp hd with rfl | hd
      · exact hlt
      · exact Nat.lt_trans hlt (h1 d hd)
    next hge =>
      refine List.pairwise_cons.mpr ⟨?_, ih h2 (fun d hd => ha d (by simp [hd]))⟩
      intro d hd
      rcases (Memory.mem_insert m a b d).mp hd with rfl | hd
      · show c.1 < a
        omega
      · exact h1 d hd

theorem Memory.wf_erase (m : Memory) (a : Nat) (h : m.wf) : (m.erase a).wf :=
  ⟨h.1.filter _, fun c hc => h.2 c (List.mem_of_mem_filter hc)⟩

/-- A write keeps the canonical form. -/
theorem Memory.wf_write (m : Memory) (a : Nat) (b : Byte) (h : m.wf) : (m.write a b).wf := by
  have he := Memory.wf_erase m a h
  unfold Memory.write
  split
  · exact he
  next hb =>
    refine ⟨Memory.pairwise_insert _ _ _ he.1 (Memory.ne_of_mem_erase m a), ?_⟩
    intro c hc
    rcases (Memory.mem_insert _ a b c).mp hc with rfl | hc
    · exact hb
    · exact he.2 c hc

/-- A write below the bound keeps every listed address below it. -/
theorem Memory.below_write (m : Memory) (a : Nat) (b : Byte) (bound : Nat) (h : m.below bound) (ha : a < bound) :
    (m.write a b).below bound := by
  intro c hc
  unfold Memory.write at hc
  split at hc
  · exact h c (List.mem_of_mem_filter hc)
  · rcases (Memory.mem_insert _ a b c).mp hc with rfl | hc
    · exact ha
    · exact h c (List.mem_of_mem_filter hc)

theorem Memory.wf_writeBytes (d : List Byte) : ∀ (m : Memory) (a : Nat), m.wf → (m.writeBytes a d).wf := by
  induction d with
  | nil => exact fun m a h => h
  | cons b d ih => exact fun m a h => ih _ _ (Memory.wf_write m a b h)

theorem Memory.below_writeBytes (bound : Nat) (d : List Byte) :
    ∀ (m : Memory) (a : Nat), m.below bound → a + d.length ≤ bound → (m.writeBytes a d).below bound := by
  induction d with
  | nil => exact fun m a h _ => h
  | cons b d ih =>
    intro m a h hb
    rw [List.length_cons] at hb
    exact ih _ _ (Memory.below_write m a b bound h (by omega)) (by omega)

/-- The bytes of memory after storing a list of bytes. -/
theorem Memory.read_writeBytes (d : List Byte) :
    ∀ (m : Memory) (a x : Nat),
      (m.writeBytes a d).read x = if a ≤ x ∧ x < a + d.length then d.getD (x - a) 0#8 else m.read x := by
  induction d with
  | nil =>
    intro m a x
    rw [if_neg (by simp)]
    rfl
  | cons b d ih =>
    intro m a x
    rw [Memory.writeBytes, ih, Memory.read_write, List.length_cons]
    by_cases hx : x = a
    · subst hx
      rw [if_neg (by omega), if_pos rfl, if_pos (by omega)]
      simp
    · rw [if_neg hx]
      by_cases h : a + 1 ≤ x ∧ x < a + 1 + d.length
      · rw [if_pos h, if_pos (by omega)]
        obtain ⟨k, rfl⟩ : ∃ k, x = a + 1 + k := ⟨x - (a + 1), by omega⟩
        have h1 : a + 1 + k - (a + 1) = k := by omega
        have h2 : a + 1 + k - a = k + 1 := by omega
        simp [h1, h2]
      · rw [if_neg h, if_neg (by omega)]

theorem Memory.length_readBytes (m : Memory) (a n : Nat) : (m.readBytes a n).length = n := by
  simp [Memory.readBytes]

/-- Reads of a range depend on that range alone. -/
theorem Memory.readBytes_congr (m m' : Memory) (a a' n : Nat)
    (h : ∀ p < n, m.read (a + p) = m'.read (a' + p)) : m.readBytes a n = m'.readBytes a' n :=
  List.map_congr_left fun k hk => h k (List.mem_range.mp hk)

theorem Memory.read_of_forall_ne (m : Memory) (a : Nat) (h : ∀ c ∈ m, c.1 ≠ a) : m.read a = Memory.unlisted := by
  induction m with
  | nil => rfl
  | cons c m ih => simp [Memory.read, h c (by simp), ih fun d hd => h d (by simp [hd])]

/-- Canonical memories with equal bytes are equal data. -/
theorem Memory.eq_of_read_eq (m m' : Memory) (h : m.wf) (h' : m'.wf) (hr : ∀ a, m.read a = m'.read a) : m = m' := by
  induction m generalizing m' with
  | nil =>
    cases m' with
    | nil => rfl
    | cons c m' =>
      have := hr c.1
      simp only [Memory.read, if_true] at this
      exact absurd this.symm (h'.2 c (by simp))
  | cons c m ih =>
    obtain ⟨hc, hm⟩ := List.pairwise_cons.mp h.1
    have hread : ∀ (d : Host.Cell) (l : Memory), (∀ e ∈ l, d.1 < e.1) → ∀ a ≤ d.1, Memory.read l a = Memory.unlisted :=
      fun d l hl a ha => Memory.read_of_forall_ne l a fun e he => by have := hl e he; omega
    cases m' with
    | nil =>
      have := hr c.1
      simp only [Memory.read, if_true] at this
      exact absurd this (h.2 c (by simp))
    | cons d m' =>
      obtain ⟨hd, hm'⟩ := List.pairwise_cons.mp h'.1
      have hcd : c.1 = d.1 := by
        rcases Nat.lt_trichotomy c.1 d.1 with hlt | heq | hgt
        · have := hr c.1
          simp only [Memory.read, if_true, if_neg (show ¬ d.1 = c.1 by omega)] at this
          rw [hread d m' hd c.1 (by omega)] at this
          exact absurd this (h.2 c (by simp))
        · exact heq
        · have := hr d.1
          simp only [Memory.read, if_true, if_neg (show ¬ c.1 = d.1 by omega)] at this
          rw [hread c m hc d.1 (by omega)] at this
          exact absurd this.symm (h'.2 d (by simp))
      have hv : c.2 = d.2 := by
        have := hr c.1
        simpa [Memory.read, hcd] using this
      have hcell : c = d := Prod.ext hcd hv
      subst hcell
      congr 1
      refine ih m' ⟨hm, fun e he => h.2 e (by simp [he])⟩ ⟨hm', fun e he => h'.2 e (by simp [he])⟩ fun a => ?_
      by_cases ha : a = c.1
      · subst ha
        rw [hread c m hc c.1 (Nat.le_refl _), hread c m' hd c.1 (Nat.le_refl _)]
      · have := hr a
        simpa [Memory.read, Ne.symm ha] using this

end Sys2Proof.Machine
end

