-- ==== Sys2Proof/Laws/Transform.lean ====
section
/-! SUPPORT. What the loop and the tail of XFORM_BODY do: bytes, form of memory, working counter, index, port. -/

namespace Sys2Proof.Machine

/-- The two ranges of `n` bytes are the same or share no byte (condition (3) of R49, for any `n`). -/
abbrev SameOrApart (src dst n : Nat) : Prop := src = dst ∨ src + n ≤ dst ∨ dst + n ≤ src

/-- The bytes after xoring `n` bytes. -/
theorem xorBytes_read (ks : Block) (src dst : Nat) (m : Memory) (n : Nat) (h : SameOrApart src dst n) (a : Nat) :
    (xorBytes ks src dst n m).read a =
      if dst ≤ a ∧ a < dst + n then m.read (src + (a - dst)) ^^^ byteAt ks (a - dst) else m.read a := by
  induction n generalizing a with
  | zero => rw [if_neg (by omega)]; rfl
  | succ n ih =>
    have hn : SameOrApart src dst n := by unfold SameOrApart at h ⊢; omega
    simp only [xorBytes]
    rw [Memory.read_write, ih hn, ih hn]
    by_cases ha : a = dst + n
    · subst ha
      rw [if_pos rfl, if_neg (by unfold SameOrApart at h; omega), if_pos (by omega), Nat.add_sub_cancel_left]
    · rw [if_neg ha]
      by_cases hb : dst ≤ a ∧ a < dst + n
      · rw [if_pos hb, if_pos (by omega)]
      · rw [if_neg hb, if_neg (by omega)]

theorem xorBytes_wf (ks : Block) (src dst n : Nat) (m : Memory) (h : m.wf) : (xorBytes ks src dst n m).wf := by
  induction n with
  | zero => exact h
  | succ n ih => exact Memory.wf_write _ _ _ ih

theorem xorBytes_below (ks : Block) (src dst n bound : Nat) (m : Memory) (h : m.below bound) (hb : dst + n ≤ bound) :
    (xorBytes ks src dst n m).below bound := by
  induction n with
  | zero => exact h
  | succ n ih => exact Memory.below_write _ _ _ _ (ih (by omega)) (by omega)

variable (enc : Schedule → Block → Block) (sched : Schedule) (src dst : Nat)

theorem chunks_idx (q : Nat) (x : Xfer) : (x.chunks enc sched src dst q).idx = x.idx + q := by
  induction q with
  | zero => rfl
  | succ q ih => simp only [Xfer.chunks, Xfer.chunk, ih]; omega

/-- The working counter has been advanced once a chunk (R112, R114). -/
theorem chunks_wc (q : Nat) (x : Xfer) : (x.chunks enc sched src dst q).wc = incTimes q x.wc := by
  induction q with
  | zero => rfl
  | succ q ih => simp only [Xfer.chunks, Xfer.chunk, ih, incTimes]

theorem chunks_port (q : Nat) (x : Xfer) :
    (x.chunks enc sched src dst q).port = x.port ++ (List.range q).map fun k => .enc sched (incTimes k x.wc) := by
  induction q with
  | zero => simp [Xfer.chunks]
  | succ q ih => simp [Xfer.chunks, Xfer.chunk, ih, chunks_wc, List.range_succ]

theorem chunks_wf (q : Nat) (x : Xfer) (h : x.mem.wf) : (x.chunks enc sched src dst q).mem.wf := by
  induction q with
  | zero => exact h
  | succ q ih => exact xorBytes_wf _ _ _ _ _ ih

theorem chunks_below (q bound : Nat) (x : Xfer) (h : x.mem.below bound) (hb : dst + 16 * (x.idx + q) ≤ bound) :
    (x.chunks enc sched src dst q).mem.below bound := by
  induction q with
  | zero => exact h
  | succ q ih =>
    refine xorBytes_below _ _ _ _ _ _ (ih (by omega)) ?_
    rw [chunks_idx]
    omega

/-- Xoring the next piece of the buffer after `16 i` bytes are done. -/
theorem xorBytes_next (c : Block) (i n : Nat) (m m' : Memory) (hn : n ≤ 16) (h : SameOrApart src dst (16 * i + n))
    (hm : ∀ a, m'.read a = if dst ≤ a ∧ a < dst + 16 * i
      then m.read (src + (a - dst)) ^^^ keystreamByte enc sched c (a - dst) else m.read a) (a : Nat) :
    (xorBytes (enc sched (incTimes i c)) (src + 16 * i) (dst + 16 * i) n m').read a =
      if dst ≤ a ∧ a < dst + (16 * i + n)
      then m.read (src + (a - dst)) ^^^ keystreamByte enc sched c (a - dst) else m.read a := by
  have h' : SameOrApart (src + 16 * i) (dst + 16 * i) n := by unfold SameOrApart at h ⊢; omega
  rw [xorBytes_read _ _ _ _ _ h']
  by_cases ha : dst + 16 * i ≤ a ∧ a < dst + 16 * i + n
  · rw [if_pos ha, if_pos (by omega), hm, if_neg (by unfold SameOrApart at h; omega)]
    obtain ⟨j, rfl⟩ : ∃ j, a = dst + 16 * i + j := ⟨a - (dst + 16 * i), by omega⟩
    have e1 : dst + 16 * i + j - (dst + 16 * i) = j := by omega
    have e2 : dst + 16 * i + j - dst = 16 * i + j := by omega
    have e3 : (16 * i + j) / 16 = i := by omega
    have e4 : (16 * i + j) % 16 = j := by omega
    rw [e1, e2, keystreamByte, e3, e4, Nat.add_assoc src]
  · rw [if_neg ha, hm]
    by_cases hb : dst ≤ a ∧ a < dst + 16 * i
    · rw [if_pos hb, if_pos (by omega)]
    · rw [if_neg hb, if_neg (by omega)]

/-- The bytes after `q` chunks. -/
theorem chunks_read (q : Nat) (x : Xfer) (h0 : x.idx = 0) (h : SameOrApart src dst (16 * q)) (a : Nat) :
    (x.chunks enc sched src dst q).mem.read a =
      if dst ≤ a ∧ a < dst + 16 * q
      then x.mem.read (src + (a - dst)) ^^^ keystreamByte enc sched x.wc (a - dst) else x.mem.read a := by
  induction q generalizing a with
  | zero => rw [if_neg (by omega)]; rfl
  | succ q ih =>
    have hq : SameOrApart src dst (16 * q) := by unfold SameOrApart at h ⊢; omega
    simp only [Xfer.chunks, Xfer.chunk]
    rw [chunks_wc, chunks_idx, h0, Nat.zero_add,
      xorBytes_next enc sched src dst x.wc q 16 x.mem _ (Nat.le_refl 16) (by simpa [Nat.mul_succ] using h) (ih hq) a]
    simp [Nat.mul_succ]

/-- The bytes after the whole body: the closed form of R117, for any cipher and any memory. -/
theorem body_read (len : Nat) (x : Xfer) (h0 : x.idx = 0) (h : SameOrApart src dst len) (a : Nat) :
    (x.body enc sched src dst len).mem.read a =
      if dst ≤ a ∧ a < dst + len
      then x.mem.read (src + (a - dst)) ^^^ keystreamByte enc sched x.wc (a - dst) else x.mem.read a := by
  have hq : SameOrApart src dst (16 * (len / 16)) := by unfold SameOrApart at h ⊢; omega
  have hl : 16 * (len / 16) + len % 16 = len := Nat.div_add_mod len 16
  unfold Xfer.body Xfer.tail
  split
  next hr => rw [chunks_read enc sched src dst _ x h0 hq, show 16 * (len / 16) = len by omega]
  next hr =>
    simp only
    rw [chunks_wc, chunks_idx, h0, Nat.zero_add,
      xorBytes_next enc sched src dst x.wc (len / 16) (len % 16) x.mem _ (by omega) (by rw [hl]; exact h)
        (chunks_read enc sched src dst _ x h0 hq) a, hl]

theorem body_wf (len : Nat) (x : Xfer) (h : x.mem.wf) : (x.body enc sched src dst len).mem.wf := by
  unfold Xfer.body Xfer.tail
  split
  · exact chunks_wf _ _ _ _ _ _ h
  · exact xorBytes_wf _ _ _ _ _ (chunks_wf _ _ _ _ _ _ h)

theorem body_below (len bound : Nat) (x : Xfer) (h0 : x.idx = 0) (h : x.mem.below bound) (hb : dst + len ≤ bound) :
    (x.body enc sched src dst len).mem.below bound := by
  have hc := chunks_below enc sched src dst (len / 16) bound x h (by omega)
  unfold Xfer.body Xfer.tail
  split
  · exact hc
  · refine xorBytes_below _ _ _ _ _ _ hc ?_
    rw [chunks_idx]
    omega

/-- The port after the whole body (R118, R168). -/
theorem body_port (len : Nat) (x : Xfer) :
    (x.body enc sched src dst len).port = x.port ++ encEvents sched x.wc len := by
  unfold Xfer.body Xfer.tail encEvents
  split
  next hr => rw [chunks_port, show (len + 15) / 16 = len / 16 by omega]
  next hr =>
    simp only
    rw [chunks_port, chunks_wc, show (len + 15) / 16 = len / 16 + 1 by omega, List.range_succ]
    simp

/-- The working counter after the whole body: no increment for the tail (R114). -/
theorem body_wc (len : Nat) (x : Xfer) : (x.body enc sched src dst len).wc = incTimes (len / 16) x.wc := by
  unfold Xfer.body Xfer.tail
  split <;> simp only [chunks_wc]

end Sys2Proof.Machine
end

