-- ==== Sys2Proof/Laws/Exec.lean ====
section
/-! SUPPORT. What the checks mean, and what a command and a step can answer: one inversion lemma for each. -/

namespace Sys2Proof.Machine

/-- A platform check either lets the result through or refuses. -/
theorem admittedOr_next (b : Bool) (t u : State) : admittedOr b t = .next u ↔ b = true ∧ u = t := by
  cases b <;> simp [admittedOr, eq_comm]

theorem admittedOr_refused (b : Bool) (t : State) (r : Refusal) :
    admittedOr b t = .refused r ↔ b = false ∧ r = .notAdmitted := by
  cases b <;> simp [admittedOr, eq_comm]

theorem admittedOr_not_fault (b : Bool) (t : State) (f : Fault) : admittedOr b t ≠ .fault f := by
  cases b <;> simp [admittedOr]

/-- A range is admitted when each of its addresses is. -/
theorem admits_iff (s : State) (base n : Nat) : s.admits ⟨base, n⟩ = true ↔ s.AdmitsRange base n := by
  simp only [State.admits, State.AdmitsRange, State.memAdmit, Region.meets, Region.holds, List.all_eq_true,
    Bool.not_eq_true', decide_eq_false_iff_not]
  constructor
  · intro h a h1 h2 u hu hh
    exact h u hu (by omega)
  · intro h u hu hm
    exact h (max base u.base) (by omega) (by omega) u hu (by omega)

/-- Two regions meet when some address lies in both. -/
theorem Region.meets_iff (a b : Region) : a.meets b = true ↔ ∃ x, a.holds x = true ∧ b.holds x = true := by
  simp only [Region.meets, Region.holds, decide_eq_true_eq]
  exact ⟨fun h => ⟨max a.base b.base, by omega⟩, fun ⟨x, h⟩ => by omega⟩

/-- The model's test on a list of regions in use. -/
theorem any_meets_false_iff (ranges : List Region) (base n : Nat) :
    (ranges.any fun u => u.meets ⟨base, n⟩) = false ↔ Untouched ranges base n := by
  rw [List.any_eq_false]
  refine forall₂_congr fun u _ => ?_
  rw [Region.meets_iff]
  constructor
  · intro h x h1 h2
    by_contra hc
    exact h ⟨x, by simpa using hc, decide_eq_true ⟨h1, h2⟩⟩
  · rintro h ⟨x, h1, h2⟩
    have hx := of_decide_eq_true h2
    rw [h x hx.1 hx.2] at h1
    cases h1

theorem buffersAdmitted_iff (s : State) : s.buffersAdmitted = true ↔ s.AdmitsBuffers := by
  simp [State.buffersAdmitted, State.AdmitsBuffers, State.srcRange, State.dstRange, admits_iff]

theorem keyAdmitted_iff (s : State) : s.keyAdmitted = true ↔ s.AdmitsKey := admits_iff s _ _

theorem buffersLegal_iff (s : State) : s.buffersLegal = true ↔ s.LegalBuffers := by
  simp [State.buffersLegal, legalBuffers, State.LegalBuffers, ← BitVec.toNat_inj]

theorem xformError_none_iff (s : State) : s.xformError = none ↔ s.schedV = true ∧ s.LegalBuffers := by
  rw [← buffersLegal_iff]
  unfold State.xformError
  cases s.schedV <;> cases s.buffersLegal <;> simp

theorem bufferError_none_iff (s : State) : s.bufferError = none ↔ s.LegalBuffers := by
  rw [← buffersLegal_iff]
  unfold State.bufferError
  split <;> simp_all

theorem bufferError_some (s : State) (h : ¬ s.LegalBuffers) : s.bufferError = some .badBuffer := by
  rw [← buffersLegal_iff] at h
  exact if_neg h

theorem keyError_none_iff (s : State) : s.keyError = none ↔ s.LegalKey := by
  unfold State.keyError State.LegalKey legalKeyRange
  split <;> simp_all

/-- A supported length is one of those listed. -/
theorem validKeyLen_iff (s : State) (k : Nat) : s.validKeyLen k = true ↔ k ∈ s.keyLens := by
  simp [State.validKeyLen]

theorem keyError_invalid (s : State) (h : s.validKeyLen s.keyLen.toNat = false) :
    s.keyError = some .invalidKeyLength := by
  simp [State.keyError, h]

theorem keyError_range (s : State) (h : s.validKeyLen s.keyLen.toNat = true)
    (hr : 2 ^ Config.aw < s.keyAddr.toNat + s.keyLen.toNat) : s.keyError = some .badBuffer := by
  have : ¬ s.keyAddr.toNat + s.keyLen.toNat ≤ 2 ^ Config.aw := by omega
  simp [State.keyError, h, legalKeyRange, this]

/-- The state a command ends with when the platform admits its ranges. -/
def resultOf : Instr → State → State
  | .inc, s => { s with ctr := inc128 s.ctr }.complete
  | .add, s => { s with ctr := add128 s.ctr s.n.toNat }.complete
  | .gen, s => if s.schedV then s.generated.complete else s.raise .noSchedule
  | .xform, s => s.xformResult
  | .ksetup, s => s.ksetupResult
  | .encrypt, s => s.encryptResult

/-- Whether the platform lets a command run. -/
def admittedFor : Instr → State → Bool
  | .inc, _ => true
  | .add, _ => true
  | .gen, _ => true
  | .xform, s => s.buffersAdmitted || s.xformError.isSome
  | .ksetup, s => s.keyAdmitted || s.keyError.isSome
  | .encrypt, s => (s.keyAdmitted && (s.buffersAdmitted || s.bufferError.isSome)) || s.keyError.isSome

/-- Every command is its result behind the platform's check. -/
theorem exec_eq (i : Instr) (s : State) : exec i s = admittedOr (admittedFor i s) (resultOf i s) := by
  cases i <;> rfl

/-- A command that answers a next state answers its result. -/
theorem exec_next (i : Instr) (s t : State) (h : exec i s = .next t) : t = resultOf i s := by
  rw [exec_eq, admittedOr_next] at h
  exact h.2

theorem exec_not_fault (i : Instr) (s : State) (f : Fault) : exec i s ≠ .fault f := by
  rw [exec_eq]
  exact admittedOr_not_fault _ _ _

/-- XFORM's ways to end. -/
theorem xformResult_cases (s : State) :
    (s.schedV = false ∧ s.xformResult = s.raise .noSchedule) ∨
    (s.schedV = true ∧ ¬ s.LegalBuffers ∧ s.xformResult = s.raise .badBuffer) ∨
    (s.schedV = true ∧ s.LegalBuffers ∧ s.xformResult = (s.transformed s.sched).complete) := by
  rw [← buffersLegal_iff]
  unfold State.xformResult State.xformError
  cases s.schedV <;> cases s.buffersLegal <;> simp

/-- KSETUP's ways to end. -/
theorem ksetupResult_cases (s : State) :
    (s.validKeyLen s.keyLen.toNat = false ∧ s.ksetupResult = s.dropSchedule.raise .invalidKeyLength) ∨
    (s.validKeyLen s.keyLen.toNat = true ∧ ¬ s.LegalKey ∧ s.ksetupResult = s.dropSchedule.raise .badBuffer) ∨
    (s.LegalKey ∧ s.ksetupResult =
      { s with sched := s.derivedSchedule, schedV := true, port := s.port ++ [s.setupEvent] }.complete) := by
  unfold State.ksetupResult State.keyError legalKeyRange State.LegalKey
  by_cases h : s.validKeyLen s.keyLen.toNat = true <;>
    by_cases hr : s.keyAddr.toNat + s.keyLen.toNat ≤ 2 ^ Config.aw <;> simp [h, hr]

/-- ENCRYPT's ways to end. -/
theorem encryptResult_cases (s : State) :
    (s.validKeyLen s.keyLen.toNat = false ∧ s.encryptResult = s.dropSchedule.raise .invalidKeyLength) ∨
    (s.validKeyLen s.keyLen.toNat = true ∧ ¬ s.LegalKey ∧ s.encryptResult = s.dropSchedule.raise .badBuffer) ∨
    (s.LegalKey ∧ ¬ s.LegalBuffers ∧ s.encryptResult =
      ({ s with port := s.port ++ [s.setupEvent] } : State).dropSchedule.raise .badBuffer) ∨
    (s.LegalKey ∧ s.LegalBuffers ∧ s.encryptResult =
      (({ s with port := s.port ++ [s.setupEvent] } : State).transformed s.derivedSchedule).dropSchedule.complete) := by
  by_cases hb : s.LegalBuffers
  · have he := (bufferError_none_iff s).mpr hb
    unfold State.encryptResult State.keyError legalKeyRange State.LegalKey
    by_cases h : s.validKeyLen s.keyLen.toNat = true <;>
      by_cases hr : s.keyAddr.toNat + s.keyLen.toNat ≤ 2 ^ Config.aw <;> simp [h, hr, hb, he]
  · have he := bufferError_some s hb
    unfold State.encryptResult State.keyError legalKeyRange State.LegalKey
    by_cases h : s.validKeyLen s.keyLen.toNat = true <;>
      by_cases hr : s.keyAddr.toNat + s.keyLen.toNat ≤ 2 ^ Config.aw <;> simp [h, hr, hb, he]

/-- Legal buffers of at least one byte are the same range or share no byte. -/
theorem LegalBuffers_apart (s : State) (h : s.LegalBuffers) :
    s.len.toNat = 0 ∨ SameOrApart s.src.toNat s.dst.toNat s.len.toNat := by
  obtain ⟨-, -, h | h | h⟩ := h
  · exact .inl h
  · exact .inr (.inl (by rw [h]))
  · exact .inr (.inr h)

/-- The bytes of memory after `XFORM_BODY` on legal buffers. -/
theorem xferEnd_read (s : State) (sched : Schedule) (h : s.LegalBuffers) (a : Nat) :
    (s.xferEnd sched).mem.read a =
      if s.dst.toNat ≤ a ∧ a < s.dst.toNat + s.len.toNat
      then s.mem.read (s.src.toNat + (a - s.dst.toNat)) ^^^
        keystreamByte Config.encryptBlock sched s.ctr (a - s.dst.toNat)
      else s.mem.read a := by
  rcases LegalBuffers_apart s h with h0 | h
  · rw [if_neg (by omega), State.xferEnd, h0]
    rfl
  · exact body_read _ _ _ _ _ s.xferStart rfl h a

theorem xferEnd_port (s : State) (sched : Schedule) :
    (s.xferEnd sched).port = s.port ++ encEvents sched s.ctr s.len.toNat := body_port _ _ _ _ _ _

theorem xferEnd_wf (s : State) (sched : Schedule) (h : s.mem.wf) : (s.xferEnd sched).mem.wf := body_wf _ _ _ _ _ _ h

theorem xferEnd_below (s : State) (sched : Schedule) (hl : s.LegalBuffers) (h : s.mem.below (2 ^ Config.aw)) :
    (s.xferEnd sched).mem.below (2 ^ Config.aw) := body_below _ _ _ _ _ _ _ rfl h hl.2.1

/-- What the CORE's turn can answer. -/
theorem runCommand_next (s t : State) (h : runCommand s = .next t) :
    (∃ i, decode s.cmd = .command i ∧ exec i s = .next t) ∨
    (∃ why, decode s.cmd = .illegal why ∧ t = s.raise .illegalCommand) := by
  unfold runCommand at h
  split at h
  next i hi => exact .inl ⟨i, hi, h⟩
  next why hw =>
    injection h with h
    exact .inr ⟨why, hw, h.symm⟩

/-- What a step can answer: the host and the CORE rest, the CORE takes its turn, or the host makes a move. -/
theorem step_next (s t : State) (h : step s = .next t) :
    (s.host = [] ∧ s.busy = false ∧ t = s) ∨
    (s.coreTurn = true ∧ runCommand s.afterWait = .next t) ∨
    (∃ m rest, s.host = m :: rest ∧ s.busy = false ∧ hostMoveIdle m { s with host := rest } = .next t) ∨
    (∃ m rest, s.host = m :: rest ∧ m ≠ .wait ∧ s.busy = true ∧ hostMoveBusy m { s with host := rest } = .next t) := by
  unfold step nextMove at h
  rcases hh : s.host with _ | ⟨m, rest⟩
  · rw [hh] at h
    cases hb : s.busy
    · simp [hb] at h
      exact .inl ⟨rfl, rfl, h.symm⟩
    · refine .inr (.inl ⟨by simp [State.coreTurn, hb, hh], ?_⟩)
      have : s.afterWait = s := by
        unfold State.afterWait
        rw [hh, List.tail_nil, ← hh]
      rw [this]
      simpa [hb] using h
  · rw [hh] at h
    cases hb : s.busy
    · exact .inr (.inr (.inl ⟨m, rest, rfl, rfl, by simpa [hb] using h⟩))
    · by_cases hm : m = .wait
      · subst hm
        refine .inr (.inl ⟨by simp [State.coreTurn, hb, hh], ?_⟩)
        have : s.afterWait = { s with host := rest } := by simp [State.afterWait, hh]
        rw [this]
        simpa [hb, hostMoveBusy] using h
      · exact .inr (.inr (.inr ⟨m, rest, rfl, hm, rfl, by simpa [hb] using h⟩))

end Sys2Proof.Machine
end

