-- ==== Sys2Proof/Laws/PerInstr.lean ====
section
/-! SUPPORT. What holds of every command as syntax, one lemma per command. -/

namespace Sys2Proof.Laws.Encoding

/-- The command's word is legal, it is the command's opcode and nothing else, one of the numbers 1 to 6, and the decoder reads the
command from it, whether it is asked for the word or for the table's row (R61, R63 to R66). -/
def Statement (i : Instr) : Prop :=
  i.wf = true ∧ fieldsOf (encode i) = i.fields ∧ (encode i).toNat = i.opcode.toNat ∧ decode (encode i) = .command i ∧
    decodeTableWord 32 (encode i).toNat = some i

theorem inc : Statement .inc := by unfold Statement; decide

theorem add : Statement .add := by unfold Statement; decide

theorem gen : Statement .gen := by unfold Statement; decide

theorem xform : Statement .xform := by unfold Statement; decide

theorem ksetup : Statement .ksetup := by unfold Statement; decide

theorem encrypt : Statement .encrypt := by unfold Statement; decide

end Sys2Proof.Laws.Encoding
end

