-- ==== Sys2Proof/Laws/Step.lean ====
section
/-! SUPPORT. Which move a step makes, what each move of the host can do, what the three long commands do when they run, and
what a reset during a command leaves in memory. -/

namespace Sys2Proof.Machine

/-- With the CORE idle, a step is the host's move. -/
theorem step_idle (s : State) (m : HostMove) (rest : List HostMove) (hb : s.busy = false) (hh : s.host = m :: rest) :
    step s = hostMoveIdle m { s with host := rest } := by
  simp [step, nextMove, hh, hb]

/-- With a command in flight, a step is the host's move, `wait` being the CORE's turn. -/
theorem step_busy (s : State) (m : HostMove) (rest : List HostMove) (hb : s.busy = true) (hh : s.host = m :: rest) :
    step s = hostMoveBusy m { s with host := rest } := by
  simp [step, nextMove, hh, hb]

/-- A register takes every value of its width. -/
theorem takeNumber_toNat (width : Nat) (v : BitVec width) (f : BitVec width → State) :
    takeNumber width v.toNat f = .next (f v) := by
  rw [takeNumber, if_pos v.isLt, BitVec.ofNat_toNat, BitVec.setWidth_eq]

/-- A memory access of the host that answers lies inside memory and is admitted. -/
theorem hostMemory_next (s : State) (r : Region) (t u : State) (h : hostMemory s r t = .next u) :
    r.base + r.size ≤ 2 ^ Config.aw ∧ s.admits r = true ∧ u = t := by
  unfold hostMemory at h
  split at h
  next hle => exact ⟨hle, (admittedOr_next _ _ _).mp h⟩
  · cases h

/-- A host write issues a command or changes neither schedule, memory, port nor BUSY. -/
theorem hostWrite_cases (r : Nat) (v : HostValue) (s t : State) (h : hostWrite r v s = .next t) :
    (∃ w : CmdWord, t = s.issue w ∧ r = 8 ∧ v = .number w.toNat) ∨
    (t.sched = s.sched ∧ t.schedV = s.schedV ∧ t.mem = s.mem ∧ t.port = s.port ∧ t.busy = s.busy ∧
      t.unmapped = s.unmapped ∧ t.keyLens = s.keyLens) := by
  unfold hostWrite at h
  split at h
  next reg hr =>
    have hn : reg = .cmd → r = 8 := by
      rintro rfl
      unfold Reg.ofNumber at hr
      split at hr <;> first | rfl | cases hr
    unfold writeReg takeNumber at h
    split at h <;> (try split at h) <;>
      first | (injection h with h; subst h; exact .inr ⟨rfl, rfl, rfl, rfl, rfl, rfl, rfl⟩) | cases h
    next hlt =>
      refine .inl ⟨_, rfl, hn rfl, ?_⟩
      rw [BitVec.toNat_ofNat, Nat.mod_eq_of_lt hlt]
  · cases h

/-- What a host move that neither issues nor resets leaves alone; memory it leaves alone or stores bytes inside the address
space. -/
structure HostKeeps (s t : State) : Prop where
  sched    : t.sched = s.sched
  schedV   : t.schedV = s.schedV
  port     : t.port = s.port
  busy     : t.busy = s.busy
  unmapped : t.unmapped = s.unmapped
  keyLens  : t.keyLens = s.keyLens
  mem      : t.mem = s.mem ∨ ∃ a d, a + d.length ≤ 2 ^ Config.aw ∧ t.mem = s.mem.writeBytes a d

/-- What a host move with the CORE idle can do to BUSY, the schedule, the port, the parameters and memory. -/
theorem hostMoveIdle_cases (m : HostMove) (s t : State) (h : hostMoveIdle m s = .next t) :
    (∃ w : CmdWord, t = s.issue w ∧ m = .write 8 (.number w.toNat)) ∨ (m = .reset ∧ t = s.assertReset) ∨
    HostKeeps s t := by
  cases m <;> simp only [hostMoveIdle] at h
  case write r v =>
    rcases hostWrite_cases r v s t h with ⟨w, h1, rfl, rfl⟩ | ⟨h1, h2, h3, h4, h5, h6, h7⟩
    · exact .inl ⟨w, h1, rfl⟩
    · exact .inr (.inr ⟨h1, h2, h4, h5, h6, h7, .inl h3⟩)
  case read r =>
    unfold hostRead at h
    split at h
    · injection h with h
      subst h
      refine .inr (.inr ⟨?_, ?_, ?_, ?_, ?_, ?_, .inl ?_⟩) <;> simp
    · cases h
  case store a d =>
    obtain ⟨h1, h2, rfl⟩ := hostMemory_next _ _ _ _ h
    exact .inr (.inr ⟨rfl, rfl, rfl, rfl, rfl, rfl, .inr ⟨a, d, h1, rfl⟩⟩)
  case load a d =>
    obtain ⟨h1, h2, rfl⟩ := hostMemory_next _ _ _ _ h
    exact .inr (.inr ⟨rfl, rfl, rfl, rfl, rfl, rfl, .inl rfl⟩)
  case reset => injection h with h; exact .inr (.inl ⟨rfl, h.symm⟩)
  case wait => injection h with h; subst h; exact .inr (.inr ⟨rfl, rfl, rfl, rfl, rfl, rfl, .inl rfl⟩)

/-- What a host move with a command in flight can do: abandon the command, or read and store away from its ranges. -/
theorem hostMoveBusy_cases (m : HostMove) (s t : State) (hm : m ≠ .wait) (h : hostMoveBusy m s = .next t) :
    (m = .reset ∧ abandon s = .next t) ∨
    ∃ mem reads draws, t = { s with mem := mem, reads := reads, draws := draws } ∧
      (mem = s.mem ∨ ∃ a d, a + d.length ≤ 2 ^ Config.aw ∧ Untouched (s.rangesRead ++ s.rangesWritten) a d.length ∧
        mem = s.mem.writeBytes a d) := by
  cases m <;> simp only [hostMoveBusy] at h
  case write r v => cases h
  case read r =>
    unfold hostReadBusy at h
    split at h
    · injection h with h
      exact .inr ⟨_, _, _, h.symm, .inl rfl⟩
    · cases h
  case store a d =>
    unfold hostStoreBusy at h
    split at h
    · cases h
    next hu =>
      obtain ⟨h1, h2, rfl⟩ := hostMemory_next _ _ _ _ h
      exact .inr ⟨_, _, _, rfl, .inr ⟨a, d, h1, (any_meets_false_iff _ _ _).mp (by simpa using hu), rfl⟩⟩
  case load a d =>
    unfold hostLoadBusy at h
    split at h
    · cases h
    · obtain ⟨h1, h2, rfl⟩ := hostMemory_next _ _ _ _ h
      exact .inr ⟨_, _, _, rfl, .inl rfl⟩
  case reset => exact .inl ⟨rfl, h⟩
  case wait => exact absurd rfl hm

/-- XFORM when it runs. -/
theorem exec_xform_runs (s : State) (h : s.XformRuns) : exec .xform s = .next (s.transformed s.sched).complete := by
  obtain ⟨h1, h2, h3⟩ := h
  have hn := (xformError_none_iff s).mpr ⟨h1, h2⟩
  rw [exec_eq, admittedOr_next]
  exact ⟨by simp [admittedFor, (buffersAdmitted_iff s).mpr h3], by simp [resultOf, State.xformResult, hn]⟩

/-- KSETUP when it runs. -/
theorem exec_ksetup_runs (s : State) (h : s.KsetupRuns) : exec .ksetup s = .next
    ({ s with sched := s.derivedSchedule, schedV := true, port := s.port ++ [s.setupEvent] } : State).complete := by
  have hn := (keyError_none_iff s).mpr h.1
  rw [exec_eq, admittedOr_next]
  exact ⟨by simp [admittedFor, (keyAdmitted_iff s).mpr h.2], by simp [resultOf, State.ksetupResult, hn]⟩

/-- ENCRYPT when it runs. -/
theorem exec_encrypt_runs (s : State) (h : s.EncryptRuns) : exec .encrypt s = .next
    (({ s with port := s.port ++ [s.setupEvent] } : State).transformed s.derivedSchedule).dropSchedule.complete := by
  have hn := (keyError_none_iff s).mpr h.1
  have hb := (bufferError_none_iff s).mpr h.2.2.1
  rw [exec_eq, admittedOr_next]
  exact ⟨by simp [admittedFor, (keyAdmitted_iff s).mpr h.2.1, (buffersAdmitted_iff s).mpr h.2.2.2],
    by simp [resultOf, State.encryptResult, hn, hb]⟩

/-- The bytes of memory after some of the bytes of a range have landed. -/
theorem landBytes_read (picked : Nat → Bool) (base : Nat) (final : Memory) (n : Nat) (m : Memory) (a : Nat) :
    (landBytes picked base final n m).read a =
      if base ≤ a ∧ a < base + n ∧ picked (a - base) = true then final.read a else m.read a := by
  induction n with
  | zero => rw [if_neg (by omega)]; rfl
  | succ n ih =>
    simp only [landBytes]
    by_cases ha : a = base + n
    · subst ha
      by_cases hp : picked n = true
      · rw [if_pos hp, Memory.read_write, if_pos rfl, if_pos ⟨by omega, by omega, by simpa using hp⟩]
      · rw [if_neg hp, ih, if_neg (by omega), if_neg (by simpa using hp)]
    · have hsame : (base ≤ a ∧ a < base + n ∧ picked (a - base) = true) ↔
          (base ≤ a ∧ a < base + (n + 1) ∧ picked (a - base) = true) :=
        and_congr_right fun _ => and_congr_left fun _ => by omega
      split
      · rw [Memory.read_write, if_neg ha, ih]
        simp only [hsame]
      · rw [ih]
        simp only [hsame]

theorem landBytes_wf (picked : Nat → Bool) (base : Nat) (final : Memory) (n : Nat) (m : Memory) (h : m.wf) :
    (landBytes picked base final n m).wf := by
  induction n with
  | zero => exact h
  | succ n ih =>
    simp only [landBytes]
    split
    · exact Memory.wf_write _ _ _ ih
    · exact ih

/-- Only XFORM and ENCRYPT can have bytes land when they are abandoned, and only in the destination range. -/
theorem landedMemory_cases (s : State) (final : Memory) : landedMemory s final = s.mem ∨
    ((decode s.cmd = .command .xform ∨ decode s.cmd = .command .encrypt) ∧ landedMemory s final =
      landBytes s.landed s.dst.toNat final s.len.toNat s.mem) := by
  unfold landedMemory State.rangesWritten
  cases hd : decode s.cmd with
  | illegal why => exact .inl rfl
  | command i =>
    cases i
    case xform => exact .inr ⟨.inl rfl, rfl⟩
    case encrypt => exact .inr ⟨.inr rfl, rfl⟩
    all_goals exact .inl rfl

end Sys2Proof.Machine
end

