-- ==== Sys2Proof/Tests/Slice0.lean ====
section
/-! SUPPORT. Tests. Every expected value comes from spec/: a command word written out from the table of 30_encoding.md, or a vector
of 95_test_vectors.md (named in the comment). The second half shows, for each statement with hypotheses, a state that meets them. -/

namespace Sys2Proof.Tests

open Sys2Proof Sys2Proof.Machine

/-! ### Well-formedness and decoding -/

/-- Reserved bits set (R65), opcode 0x00 and opcode 0x07 (R64): one ill-formed set of fields for each check. -/
theorem test_wf_refuses :
    CmdFields.reservedZero ⟨1#8, 1#24⟩ = false ∧ CmdFields.wf ⟨1#8, 1#24⟩ = false ∧
    CmdFields.opcodeAssigned ⟨0#8, 0#24⟩ = false ∧ CmdFields.wf ⟨0#8, 0#24⟩ = false ∧
    CmdFields.opcodeAssigned ⟨7#8, 0#24⟩ = false ∧ CmdFields.wf ⟨7#8, 0#24⟩ = false := by decide

/-- 30_encoding.md section 2, bit by bit: `rsv` (24 bits) then `op` (8 bits). -/
theorem test_decode_inc : decode 0b00000000000000000000000000000001#32 = .command .inc := by decide

theorem test_decode_add : decode 0b00000000000000000000000000000010#32 = .command .add := by decide

theorem test_decode_gen : decode 0b00000000000000000000000000000011#32 = .command .gen := by decide

theorem test_decode_xform : decode 0b00000000000000000000000000000100#32 = .command .xform := by decide

theorem test_decode_ksetup : decode 0b00000000000000000000000000000101#32 = .command .ksetup := by decide

theorem test_decode_encrypt : decode 0b00000000000000000000000000000110#32 = .command .encrypt := by decide

/-- E4 to E8. -/
theorem test_decode_illegal :
    decode 0x00000000#32 = .illegal .reservedOpcode ∧ decode 0x00000007#32 = .illegal .reservedOpcode ∧
    decode 0x000000ff#32 = .illegal .reservedOpcode ∧ decode 0x00000101#32 = .illegal .reservedBits ∧
    decode 0x80000004#32 = .illegal .reservedBits := by decide

/-- A number of more than 32 bits is no command word. -/
theorem test_table_word_too_wide : decodeTableWord 40 (2 ^ 32 + 1) = none := by decide

/-! ### Counter vectors -/

/-- A block from 32 hexadecimal digits, the first two being byte 0. -/
def hex (v : Nat) : Block := Vector.ofFn fun k : Fin 16 => BitVec.ofNat 8 (v >>> (8 * (15 - k.val)))

/-- I2, I3. -/
theorem test_inc_carries :
    inc128 (hex 0xffffffffffffffffffffffffffffffff) = hex 0 ∧
    inc128 (hex 0x0000000000000000ffffffffffffffff) = hex 0x00000000000000010000000000000000 := by decide

/-- I4, I5, I7, I8. -/
theorem test_inc_stops :
    inc128 (hex 0x000102030405060708090a0b0c0d0eff) = hex 0x000102030405060708090a0b0c0d0f00 ∧
    inc128 (hex 0x00000000000000ffffffffffffffffff) = hex 0x00000000000001000000000000000000 ∧
    inc128 (hex 0xffffffffffffffff0000000000000000) = hex 0xffffffffffffffff0000000000000001 ∧
    inc128 (hex 0x7fffffffffffffffffffffffffffffff) = hex 0x80000000000000000000000000000000 := by decide

/-- Table A, rows 2 and 3, N = 256 and N = 2^64 - 1. -/
theorem test_add_carries :
    add128 (hex 0xffffffffffffffffffffffffffffffff) 0x100 = hex 0x000000000000000000000000000000ff ∧
    add128 (hex 0xffffffffffffffffffffffffffffffff) 0xffffffffffffffff = hex 0x0000000000000000fffffffffffffffe ∧
    add128 (hex 0x0000000000000000ffffffffffffffff) 0xff = hex 0x000000000000000100000000000000fe ∧
    add128 (hex 0x0000000000000000ffffffffffffffff) 0xffffffffffffffff = hex 0x0000000000000001fffffffffffffffe := by
  decide

/-- Table A, rows 5 and 8, N = 1 and N = 2. -/
theorem test_add_small :
    add128 (hex 0x00000000000000ffffffffffffffffff) 2 = hex 0x00000000000001000000000000000001 ∧
    add128 (hex 0x7fffffffffffffffffffffffffffffff) 1 = hex 0x80000000000000000000000000000000 := by decide

/-! ### The stream transform with the test cipher T0 (95_test_vectors.md section 2) -/

/-- T0: the schedule is the key, a block is the counter xor the key. -/
def t0 (s : Schedule) (x : Block) : Block := Vector.ofFn fun k : Fin 16 => byteAt x k.val ^^^ s.image.getD k.val 0#8

/-- The key K. -/
def keyK : Schedule := ⟨(List.range 16).map fun k => BitVec.ofNat 8 (0xa0 + k)⟩

/-- XFORM_BODY of T0 with key K on the given memory, counter and operands. -/
def runT0 (mem : Memory) (ctr src dst len : Nat) : Xfer :=
  Xfer.body t0 keyK src dst len ⟨mem, zeroBlock, hex ctr, 0, []⟩

/-- The 17 input bytes of X1, at 0x200. -/
def inputX1 : Memory := Memory.writeBytes [] 0x200 ((List.range 17).map fun k => BitVec.ofNat 8 (0x10 + k))

/-- X1. -/
theorem test_xform_x1 : (runT0 inputX1 0xfe 0x200 0x300 17).mem.readBytes 0x300 18 =
    [0xb0, 0xb0, 0xb0, 0xb0, 0xb0, 0xb0, 0xb0, 0xb0, 0xb0, 0xb0, 0xb0, 0xb0, 0xb0, 0xb0, 0xb0, 0x4e, 0x80, 0x00] := by
  decide +kernel

/-- X1: the events. -/
theorem test_xform_x1_events :
    (runT0 inputX1 0xfe 0x200 0x300 17).port = [.enc keyK (hex 0xfe), .enc keyK (hex 0xff)] := by decide

/-- X3, LEN = 15: all zero bytes in, the byte after the range still 0xee. -/
theorem test_xform_x3_tail :
    (runT0 (Memory.write [] 0x30f 0xee) 0xfe 0x200 0x300 15).mem.readBytes 0x300 16 =
    [0xa0, 0xa1, 0xa2, 0xa3, 0xa4, 0xa5, 0xa6, 0xa7, 0xa8, 0xa9, 0xaa, 0xab, 0xac, 0xad, 0xae, 0xee] := by decide

/-- X10: the counter wraps inside the transform. -/
theorem test_xform_x10_events : (runT0 [] 0xffffffffffffffffffffffffffffffff 0x200 0x300 33).port =
    [.enc keyK (hex 0xffffffffffffffffffffffffffffffff), .enc keyK (hex 0), .enc keyK (hex 1)] := by decide

/-- Buffer corner cases B1 to B10, AW = 64. -/
theorem test_buffer_legality :
    legalBuffers 64 0x200 0x200 17 = true ∧ legalBuffers 64 0x200 0x211 17 = true ∧
    legalBuffers 64 0x211 0x200 17 = true ∧ legalBuffers 64 0x200 0x210 17 = false ∧
    legalBuffers 64 0x200 0x208 17 = false ∧ legalBuffers 64 0xFFFFFFFFFFFFFFF0 0x300 17 = false ∧
    legalBuffers 64 0xFFFFFFFFFFFFFFF0 0x300 16 = true ∧ legalBuffers 64 0x300 0xFFFFFFFFFFFFFFF0 17 = false ∧
    legalBuffers 64 0xFFFFFFFFFFFFFFFF 0xFFFFFFFFFFFFFFFF 0 = true ∧ legalBuffers 64 0x200 0x208 0 = true := by decide

/-- K5, K6. -/
theorem test_key_range :
    legalKeyRange 64 0xFFFFFFFFFFFFFFF8 16 = false ∧ legalKeyRange 64 0xFFFFFFFFFFFFFFF0 16 = true := by decide

/-- S7, K2, K4: 15 and 0 are no lengths of AES, 16 is. -/
theorem test_key_lengths :
    State.validKeyLen { State.reset with keyLens := [16, 24, 32] } 15 = false ∧
    State.validKeyLen { State.reset with keyLens := [16, 24, 32] } 0 = false ∧
    State.validKeyLen { State.reset with keyLens := [16, 24, 32] } 16 = true := by decide

/-- The STATUS values of 95_test_vectors.md: 0x02, 0x10, 0x20, 0x30, 0x40, 0x22, 0x42. -/
theorem test_status_values :
    statusOf false true (ErrCode.code .ok) = 0x02#32 ∧
    statusOf false false (ErrCode.code .invalidKeyLength) = 0x10#32 ∧
    statusOf false false (ErrCode.code .illegalCommand) = 0x20#32 ∧
    statusOf false false (ErrCode.code .noSchedule) = 0x30#32 ∧
    statusOf false false (ErrCode.code .badBuffer) = 0x40#32 ∧
    statusOf false true (ErrCode.code .illegalCommand) = 0x22#32 ∧
    statusOf false true (ErrCode.code .badBuffer) = 0x42#32 := by decide

/-! ### Single steps from reset -/

/-- The step answers a state. -/
def answers : Host.Outcome State Fault Refusal → Bool
  | .next _ => true
  | .fault _ => false
  | .refused _ => false

/-- STATUS after the step, where it answers a state. -/
def statusAfter : Host.Outcome State Fault Refusal → Option (BitVec 32)
  | .next t => some (statusWord t)
  | .fault _ => none
  | .refused _ => none

/-- Each of the six words runs as the first command after reset. -/
theorem test_words_run_from_reset : ∀ w ∈ [1, 2, 3, 4, 5, 6], answers (step (State.reset.withFetchWord 32 w)) = true := by decide

/-- E2, E3 (0x30), E4, E5, E7 (0x20) and INC (0x00) after reset. -/
theorem test_status_from_reset :
    statusAfter (step (State.reset.withFetchWord 32 3)) = some 0x30#32 ∧
    statusAfter (step (State.reset.withFetchWord 32 4)) = some 0x30#32 ∧
    statusAfter (step (State.reset.withFetchWord 32 0)) = some 0x20#32 ∧
    statusAfter (step (State.reset.withFetchWord 32 7)) = some 0x20#32 ∧
    statusAfter (step (State.reset.withFetchWord 32 0x101)) = some 0x20#32 ∧
    statusAfter (step (State.reset.withFetchWord 32 1)) = some 0x00#32 := by decide

/-- Q1: IllegalCommand before NoSchedule; E8: the schedule survives (0x22). -/
theorem test_illegal_word_first :
    statusAfter (step (State.reset.withFetchWord 32 0x80000004)) = some 0x20#32 ∧
    statusAfter (step (({ State.reset with schedV := true } : State).withFetchWord 32 0x80000004)) = some 0x22#32 := by decide

/-! ### States that meet the hypotheses of the statements -/

/-- One byte at address 0 in place, a schedule held. -/
def ready : State := { State.reset with schedV := true, len := 1#Config.lenw }

/-- A key of two bytes at address 0, of the one supported length, no data. -/
def keyed : State := { State.reset with keyLens := [2], keyLen := 2#Config.lenw }

/-- An unsupported key length: the same key, with the lengths of AES. -/
def unkeyed : State := { keyed with keyLens := [16, 24, 32] }

/-- A key range that runs past the top of the address space. -/
def keyPastTop : State := { keyed with keyAddr := BitVec.allOnes Config.aw }

/-- A source of two bytes at the last address. -/
def srcPastTop (s : State) : State := { s with src := BitVec.allOnes Config.aw, len := 2#Config.lenw }

/-- The platform leaves out address 0. -/
def holed (s : State) : State := { s with unmapped := [⟨0, 1⟩] }

theorem len_one : (1#Config.lenw).toNat = 1 := by
  have := Config.lenw_space
  rw [BitVec.toNat_ofNat, Nat.mod_eq_of_lt (by omega)]

theorem len_two : (2#Config.lenw).toNat = 2 := by
  have := Config.lenw_space
  rw [BitVec.toNat_ofNat, Nat.mod_eq_of_lt (by omega)]

theorem addr_zero : (0#Config.aw).toNat = 0 := by simp

theorem addr_one : (1#Config.aw).toNat = 1 := by
  have := Config.two_le_space
  rw [BitVec.toNat_ofNat, Nat.mod_eq_of_lt (by omega)]

theorem addr_top : (BitVec.allOnes Config.aw).toNat = 2 ^ Config.aw - 1 := BitVec.toNat_allOnes

theorem keyed_len : keyed.keyLen.toNat = 2 := len_two

/-- With no address left out, every range is admitted. -/
theorem admits_all (s : State) (h : s.unmapped = []) (base n : Nat) : s.AdmitsRange base n := fun a _ _ => by
  rw [State.memAdmit, h]
  rfl

/-- XformOutputClosedForm, StateAfterXform, XformGenerationCount, BufferLegalityDecidesBadBuffer: XFORM runs, on one byte and on
none. -/
theorem test_xform_runs : ready.XformRuns ∧ State.XformRuns { ready with len := 0#Config.lenw } ∧
    0 < ready.len.toNat ∧ (0#Config.lenw).toNat = 0 := by
  have ha := Config.two_le_space
  have hl : ready.len.toNat = 1 := len_one
  have hs : ready.src.toNat = 0 := addr_zero
  have hd : ready.dst.toNat = 0 := addr_zero
  refine ⟨⟨rfl, ⟨by omega, by omega, .inr (.inl rfl)⟩, admits_all _ rfl _ _, admits_all _ rfl _ _⟩,
    ⟨rfl, ⟨?_, ?_, .inl ?_⟩, admits_all _ rfl _ _, admits_all _ rfl _ _⟩, by omega, ?_⟩ <;> simp [ready, State.reset]

/-- XformIsSelfInverse: in place, and one byte from 0 to 1 and back to 0. -/
theorem test_self_inverse_hypotheses :
    (ready.XformRuns ∧ ready.src = ready.dst) ∧
    State.XformRuns { ready with dst := 1#Config.aw } ∧
    State.XformRuns { ready with src := 1#Config.aw, dst := 0#Config.aw } := by
  have ha := Config.two_le_space
  have hl : ready.len.toNat = 1 := len_one
  have hs : ready.src.toNat = 0 := addr_zero
  have hd : ready.dst.toNat = 0 := addr_zero
  have h1 := addr_one
  have h0 := addr_zero
  refine ⟨⟨test_xform_runs.1, rfl⟩, ⟨rfl, ⟨?_, ?_, ?_⟩, admits_all _ rfl _ _, admits_all _ rfl _ _⟩,
    ⟨rfl, ⟨?_, ?_, ?_⟩, admits_all _ rfl _ _, admits_all _ rfl _ _⟩⟩ <;> dsimp only <;> omega

/-- XformOutputDependsOnScheduleCounterInput: the second run writes one byte further up. -/
theorem test_output_depends_hypotheses :
    ready.XformRuns ∧ State.XformRuns { ready with dst := 1#Config.aw } ∧
    ∀ p < ready.len.toNat, ready.mem.read (ready.src.toNat + p) = ready.mem.read (ready.src.toNat + p) :=
  ⟨test_xform_runs.1, test_self_inverse_hypotheses.2.1, fun _ _ => rfl⟩

/-- XformSplitsAtMultiplesOfSixteen: split before the first byte, in any memory. -/
theorem test_split_hypotheses : ready.XformRuns ∧ 16 * 0 ≤ ready.len.toNat ∧ 0 < 2 ^ 64 :=
  ⟨test_xform_runs.1, Nat.zero_le _, by decide⟩

/-- XformSplitsAtMultiplesOfSixteen: split of 31 bytes after the first block, in a memory of at least 32 bytes. -/
theorem test_split_after_block (h : 5 ≤ Config.aw) :
    State.XformRuns { ready with len := 31#Config.lenw } ∧ 16 * 1 ≤ (31#Config.lenw).toNat := by
  have ha : 32 ≤ 2 ^ Config.aw := Nat.le_trans (by decide) (Nat.pow_le_pow_right (by decide) h)
  have hl : (31#Config.lenw).toNat = 31 := by
    have := Config.lenw_space
    rw [BitVec.toNat_ofNat, Nat.mod_eq_of_lt (by omega)]
  have hs : ready.src.toNat = 0 := addr_zero
  have hd : ready.dst.toNat = 0 := addr_zero
  exact ⟨⟨rfl, ⟨by dsimp only; omega, by dsimp only; omega, .inr (.inl rfl)⟩, admits_all _ rfl _ _, admits_all _ rfl _ _⟩,
    by omega⟩

/-- TransformsOfTwoCoresCommute: one works on address 0, the other on address 1. -/
theorem test_two_cores_hypotheses :
    ready.XformRuns ∧ State.XformRuns { ready with src := 1#Config.aw, dst := 1#Config.aw } ∧
    ready.dstRange.meets (State.srcRange { ready with src := 1#Config.aw, dst := 1#Config.aw }) = false ∧
    ready.dstRange.meets (State.dstRange { ready with src := 1#Config.aw, dst := 1#Config.aw }) = false ∧
    (State.dstRange { ready with src := 1#Config.aw, dst := 1#Config.aw }).meets ready.srcRange = false := by
  have ha := Config.two_le_space
  have hl : ready.len.toNat = 1 := len_one
  have hs : ready.src.toNat = 0 := addr_zero
  have hd : ready.dst.toNat = 0 := addr_zero
  have h1 := addr_one
  refine ⟨test_xform_runs.1, ⟨rfl, ⟨?_, ?_, .inr (.inl rfl)⟩, admits_all _ rfl _ _, admits_all _ rfl _ _⟩, ?_, ?_, ?_⟩
  · dsimp only; omega
  · dsimp only; omega
  all_goals
    refine decide_eq_false ?_
    dsimp only [State.dstRange, State.srcRange]
    omega

/-- An ENCRYPT of one byte at address 0, under the one-byte key at address 0. -/
def oneKey : State := { State.reset with keyLens := [1], keyLen := 1#Config.lenw, len := 1#Config.lenw }

/-- CommandsOfTwoCoresCommute: ENCRYPT, whose key and data are at address 0, and XFORM on address 1. -/
theorem test_two_commands_hypotheses :
    oneKey.mem = State.mem { ready with src := 1#Config.aw, dst := 1#Config.aw } ∧
    ShareNoByte (oneKey.writeRanges .encrypt) (State.readRanges { ready with src := 1#Config.aw, dst := 1#Config.aw } .xform ++
      State.writeRanges { ready with src := 1#Config.aw, dst := 1#Config.aw } .xform) ∧
    ShareNoByte (State.writeRanges { ready with src := 1#Config.aw, dst := 1#Config.aw } .xform)
      (oneKey.readRanges .encrypt ++ oneKey.writeRanges .encrypt) ∧
    (∃ t, exec .encrypt oneKey = .next t) ∧ ∃ t, exec .xform { ready with src := 1#Config.aw, dst := 1#Config.aw } = .next t := by
  have ha := Config.two_le_space
  have hl := len_one
  have h0 := addr_zero
  have h1 := addr_one
  have apart : ∀ x, ¬ ((Region.mk (0#Config.aw).toNat (1#Config.lenw).toNat).holds x = true ∧
      (Region.mk (1#Config.aw).toNat (1#Config.lenw).toNat).holds x = true) := by
    simp only [Region.holds, decide_eq_true_eq]
    omega
  refine ⟨rfl, fun u hu v hv x hx => ?_, fun u hu v hv x hx => ?_, ⟨_, exec_encrypt_runs oneKey ?_⟩, _,
    exec_xform_runs _ test_two_cores_hypotheses.2.1⟩
  · simp only [State.readRanges, State.writeRanges, State.srcRange, State.dstRange, oneKey, ready, State.reset,
      List.mem_append, List.mem_singleton, or_self] at hu hv
    rw [hu, hv] at hx
    exact apart x hx
  · simp only [State.readRanges, State.writeRanges, State.srcRange, State.dstRange, State.keyRange, oneKey, ready, State.reset,
      List.mem_append, List.mem_cons, or_self, List.not_mem_nil, or_false] at hu hv
    rw [hu, hv] at hx
    exact apart x hx.symm
  · refine ⟨⟨?_, ?_⟩, admits_all _ rfl _ _, ⟨?_, ?_, .inr (.inl rfl)⟩, admits_all _ rfl _ _, admits_all _ rfl _ _⟩
    · rw [show oneKey.keyLen.toNat = 1 from hl]
      rfl
    all_goals
      dsimp only [oneKey, State.reset]
      omega

/-- KsetupDerivesScheduleOrLosesIt, EncryptTransformsUnderDerivedSchedule, EncryptIsKsetupXformDiscard: key setup runs; the data
of ENCRYPT are empty, or one byte. -/
theorem test_key_runs : keyed.KsetupRuns ∧ keyed.EncryptRuns ∧ State.EncryptRuns { keyed with len := 1#Config.lenw } := by
  have ha := Config.two_le_space
  have hl := len_one
  have h0 : keyed.keyAddr.toNat = 0 := addr_zero
  have hs : keyed.src.toNat = 0 := addr_zero
  have hd : keyed.dst.toNat = 0 := addr_zero
  have hz : keyed.len.toNat = 0 := by simp [keyed, State.reset]
  have hk : keyed.LegalKey := by
    have hlen := keyed_len
    exact ⟨by rw [hlen]; decide, by omega⟩
  refine ⟨⟨hk, admits_all _ rfl _ _⟩, ⟨hk, admits_all _ rfl _ _, ⟨by omega, by omega, .inl hz⟩, admits_all _ rfl _ _,
    admits_all _ rfl _ _⟩, ⟨hk, admits_all _ rfl _ _, ⟨?_, ?_, .inr (.inl rfl)⟩, admits_all _ rfl _ _, admits_all _ rfl _ _⟩⟩ <;>
  · dsimp only; omega

/-- The two key errors, for KSETUP and for ENCRYPT: the length, and the range at the last address. -/
theorem test_key_errors :
    unkeyed.validKeyLen unkeyed.keyLen.toNat = false ∧
    keyPastTop.validKeyLen keyPastTop.keyLen.toNat = true ∧
    2 ^ Config.aw < keyPastTop.keyAddr.toNat + keyPastTop.keyLen.toNat := by
  have hu : unkeyed.keyLen.toNat = 2 := keyed_len
  have hl : keyPastTop.keyLen.toNat = 2 := keyed_len
  have ha : keyPastTop.keyAddr.toNat = 2 ^ Config.aw - 1 := addr_top
  have := Config.two_le_space
  exact ⟨by rw [hu]; decide, by rw [hl]; decide, by omega⟩

/-- BufferLegalityDecidesBadBuffer: each of the three conditions broken alone, with a schedule; and the first under ENCRYPT. -/
theorem test_illegal_buffers :
    ¬ (srcPastTop ready).LegalBuffers ∧
    ¬ State.LegalBuffers { ready with dst := BitVec.allOnes Config.aw, len := 2#Config.lenw } ∧
    ¬ State.LegalBuffers { ready with dst := 1#Config.aw, len := 2#Config.lenw } ∧
    (srcPastTop keyed).KsetupRuns ∧ ¬ (srcPastTop keyed).LegalBuffers := by
  have ha := Config.two_le_space
  have hl := len_two
  have ht := addr_top
  have h1 := addr_one
  have hs : ready.src.toNat = 0 := addr_zero
  refine ⟨fun h => ?_, fun h => ?_, fun h => ?_, test_key_runs.1, fun h => ?_⟩
  · have h1 := h.1
    dsimp only [srcPastTop] at h1
    omega
  · have h2 := h.2.1
    dsimp only at h2
    omega
  · obtain ⟨-, -, h | h | h⟩ := h
    · dsimp only at h
      omega
    · have := congrArg BitVec.toNat h
      dsimp only at this
      omega
    · dsimp only at h
      omega
  · have h1 := h.1
    dsimp only [srcPastTop] at h1
    omega

/-- LegalBuffersAreSameOrDisjoint, ZeroLengthXformTouchesNothing. -/
theorem test_length_hypotheses : 0 < ready.len.toNat ∧
    ({ ready with len := 0#Config.lenw } : State).schedV = true ∧ ({ ready with len := 0#Config.lenw } : State).len = 0 :=
  ⟨by have : ready.len.toNat = 1 := len_one; omega, rfl, rfl⟩

/-- UnadmittedAddressIsRefused: address 0 is left out and is a buffer byte or a key byte, the data buffers of ENCRYPT being legal
or not; and the errors that come first. -/
theorem test_unadmitted :
    ((holed ready).schedV = true ∧ (holed ready).LegalBuffers ∧ ¬ (holed ready).AdmitsBuffers) ∧
    ((holed keyed).LegalKey ∧ ¬ (holed keyed).AdmitsKey ∧ (holed keyed).LegalBuffers) ∧
    ((holed (srcPastTop keyed)).LegalKey ∧ ¬ (holed (srcPastTop keyed)).AdmitsKey ∧ ¬ (holed (srcPastTop keyed)).LegalBuffers) ∧
    (holed keyed).schedV = false ∧ ¬ (holed unkeyed).LegalKey ∧ ¬ (holed (srcPastTop ready)).LegalBuffers := by
  have hl : (holed ready).len.toNat = 1 := len_one
  have hs : (holed ready).src.toNat = 0 := addr_zero
  have hk : (holed keyed).keyLen.toNat = 2 := keyed_len
  have h0 : (holed keyed).keyAddr.toNat = 0 := addr_zero
  have key : ¬ (holed keyed).AdmitsKey := fun h => absurd (h 0 (by omega) (by omega)) (by decide)
  refine ⟨⟨rfl, test_xform_runs.1.2.1, fun h => ?_⟩, ⟨test_key_runs.1.1, key, test_key_runs.2.1.2.2.1⟩,
    ⟨test_key_runs.1.1, key, test_illegal_buffers.2.2.2.2⟩, rfl, fun h => ?_, test_illegal_buffers.1⟩
  · exact absurd (h.1 0 (by omega) (by omega)) (by decide)
  · exact absurd (h.1.symm.trans test_key_errors.1) (by decide)

/-- EncryptFailsFast, EncryptIsKsetupXformDiscard (its first clause), InvalidKeyLengthExactlyWhenUnsupported,
NoScheduleWithoutKsetup: ENCRYPT and KSETUP of an unsupported length answer with an error. -/
theorem test_key_error_answers :
    (∃ t, exec .encrypt unkeyed = .next t ∧ t.err ≠ .ok) ∧ ∃ k, exec .ksetup unkeyed = .next k ∧ k.err ≠ .ok := by
  have he := keyError_invalid unkeyed test_key_errors.1
  exact ⟨⟨resultOf .encrypt unkeyed, by rw [exec_eq, admittedOr_next]; exact ⟨by simp [admittedFor, he], rfl⟩,
      by simp [resultOf, State.encryptResult, he]⟩,
    resultOf .ksetup unkeyed, by rw [exec_eq, admittedOr_next]; exact ⟨by simp [admittedFor, he], rfl⟩,
    by simp [resultOf, State.ksetupResult, he]⟩

/-- EncryptIsKsetupXformDiscard (its second clause), and the successful clauses of the rules over all commands: KSETUP answers
with success and XFORM then answers; so does ENCRYPT. -/
theorem test_key_success_answers :
    (∃ k x, exec .ksetup keyed = .next k ∧ k.err = .ok ∧ exec .xform k = .next x) ∧
    ∃ t, exec .encrypt keyed = .next t ∧ t.err = .ok := by
  refine ⟨⟨_, _, exec_ksetup_runs keyed test_key_runs.1, rfl, exec_xform_runs _ ?_⟩, _,
    exec_encrypt_runs keyed test_key_runs.2.1, rfl⟩
  exact ⟨rfl, test_key_runs.2.1.2.2.1, admits_all _ rfl _ _, admits_all _ rfl _ _⟩

/-- EncryptIsKsetupXformDiscard (its second clause): KSETUP answers with success and XFORM then with BadBuffer. -/
theorem test_key_success_then_bad_buffer :
    ∃ k x, exec .ksetup (srcPastTop keyed) = .next k ∧ k.err = .ok ∧ exec .xform k = .next x ∧ x.err = .badBuffer := by
  have bad : ∀ t : State, ¬ t.LegalBuffers → t.schedV = true → ∃ x, exec .xform t = .next x ∧ x.err = .badBuffer := by
    intro t hl hv
    have hb : t.buffersLegal = false := Bool.eq_false_iff.mpr fun h => hl ((buffersLegal_iff t).mp h)
    have he : t.xformError = some .badBuffer := by simp [State.xformError, hv, hb]
    refine ⟨t.xformResult, ?_, by simp [State.xformResult, he]⟩
    rw [exec_eq, admittedOr_next]
    exact ⟨by simp [admittedFor, he], rfl⟩
  obtain ⟨x, hx⟩ := bad ({ srcPastTop keyed with
    sched := (srcPastTop keyed).derivedSchedule, schedV := true,
    port := (srcPastTop keyed).port ++ [(srcPastTop keyed).setupEvent] } : State).complete test_illegal_buffers.2.2.2.2 rfl
  exact ⟨_, x, exec_ksetup_runs _ test_illegal_buffers.2.2.2.1, rfl, hx⟩

/-- EncryptFailsFast, PortTransactionsInOrder: ENCRYPT with a good key and a bad buffer answers with an error. -/
theorem test_bad_buffer_answers :
    (srcPastTop keyed).LegalKey ∧ ∃ t, exec .encrypt (srcPastTop keyed) = .next t ∧ t.err ≠ .ok := by
  have hk := (keyError_none_iff _).mpr test_illegal_buffers.2.2.2.1.1
  have hb := bufferError_some _ test_illegal_buffers.2.2.2.2
  have ha := (keyAdmitted_iff _).mpr test_illegal_buffers.2.2.2.1.2
  exact ⟨test_illegal_buffers.2.2.2.1.1, resultOf .encrypt (srcPastTop keyed),
    by rw [exec_eq, admittedOr_next]; exact ⟨by simp [admittedFor, ha, hb], rfl⟩,
    by simp [resultOf, State.encryptResult, hk, hb]⟩

/-- ErrorLeavesEverythingElse, PortTransactionsInOrder (its last clause): an illegal word in the latch, and GEN without a
schedule, run to an error. -/
theorem test_run_command_errors :
    (∃ t, runCommand State.reset = .next t ∧ t.err ≠ .ok) ∧ decode State.reset.cmd = .illegal .reservedOpcode ∧
    ∃ t, runCommand { State.reset with cmd := 3#32 } = .next t ∧ t.err ≠ .ok :=
  ⟨⟨_, rfl, by decide⟩, by decide, ⟨_, rfl, by decide⟩⟩

/-- The rules over every command (frames, memory, port, errors): commands that answer, with success and with an error. -/
theorem test_commands_answer :
    (∃ t, exec .inc State.reset = .next t ∧ t.err = .ok) ∧ (∃ t, exec .gen State.reset = .next t ∧ t.err ≠ .ok) ∧
    (∃ t, exec .gen ready = .next t ∧ t.err = .ok) ∧ ∃ t, exec .xform ready = .next t ∧ t.err = .ok :=
  ⟨⟨_, rfl, rfl⟩, ⟨_, rfl, by decide⟩, ⟨_, rfl, rfl⟩, ⟨_, exec_xform_runs ready test_xform_runs.1, rfl⟩⟩

/-- GenWritesKeystreamBlock, NoScheduleWithoutKsetup. -/
theorem test_schedule_hypotheses : ready.schedV = true ∧ State.reset.schedV = false := ⟨rfl, rfl⟩

/-- Inc128ByteFormAndValueForm, IncIncrementsCtrAndNothingElse: the carry stops at byte 15, at byte 0, nowhere. -/
theorem test_inc_hypotheses :
    byteAt (hex 0) 15 ≠ 0xff#8 ∧
    (byteAt (hex 0x7fffffffffffffffffffffffffffffff) 0 ≠ 0xff#8 ∧
      ∀ j, 0 < j → j < 16 → byteAt (hex 0x7fffffffffffffffffffffffffffffff) j = 0xff#8) ∧
    ∀ j < 16, byteAt (hex 0xffffffffffffffffffffffffffffffff) j = 0xff#8 := by
  refine ⟨by decide, ⟨by decide, fun j h1 h2 => ?_⟩, by decide⟩
  revert h1
  revert j
  decide

/-- Add128WordFormAndValueForm, AddIsRepeatedIncrement, AddAdvancesCtrAndNothingElse: the largest amount, and a sum at the edge. -/
theorem test_add_hypotheses : (0xffffffffffffffff#64).toNat < 2 ^ 64 ∧ (2 ^ 64 - 2) + 1 < 2 ^ 64 ∧
    1 ≤ be64 (lowBytes (hex 1)) ∧ ¬ 1 ≤ be64 (lowBytes (hex 0)) := by decide

/-- IllegalWordChangesOnlyStatus: the CORE's turn with and without a `wait`, and a word for each clause. -/
theorem test_illegal_hypotheses :
    State.coreTurn { State.reset with busy := true } = true ∧
    State.coreTurn { State.reset with busy := true, host := [.wait] } = true ∧
    (fieldsOf 0x80000004#32).rsv ≠ 0 ∧ (fieldsOf 0x00000000#32).op = 0 ∧ 7 ≤ (fieldsOf 0x00000007#32).op.toNat := by decide

/-- StepRunsDecodedCommand, FetchWordRunsNext. -/
theorem test_issue_hypotheses :
    (State.issue State.reset 1#32).busy = true ∧ (State.issue State.reset 1#32).host = [] ∧
    decode (State.issue State.reset 1#32).cmd = .command .inc ∧
    decodeTableWord 32 6 = some .encrypt ∧ 6 < 2 ^ 32 := by decide

/-- The host's moves while idle: each is a state with BUSY = 0 and that move next. -/
theorem test_idle_moves (m : HostMove) :
    ({ State.reset with host := [m] } : State).busy = false ∧ ({ State.reset with host := [m] } : State).host = m :: [] :=
  ⟨rfl, rfl⟩

/-- The host's moves during a command, XFORM in flight: each is a state with BUSY = 1 and that move next. -/
theorem test_busy_moves (m : HostMove) :
    ({ ready with cmd := 4#32, busy := true, host := [m] } : State).busy = true ∧
    ({ ready with cmd := 4#32, busy := true, host := [m] } : State).host = m :: [] ∧
    decode ({ ready with cmd := 4#32, busy := true, host := [m] } : State).cmd = .command .xform :=
  ⟨rfl, rfl, (by decide : decode 4#32 = .command .xform)⟩

/-- The command word `w` in flight. -/
def inFlight (w : CmdWord) (s : State) : State := { s with cmd := w, busy := true }

/-- ForbiddenHostAccessIsRefused, while a command is in flight: an access of one byte at the source byte and at the destination
byte of XFORM, at a key byte of KSETUP and at the last key byte of ENCRYPT. -/
theorem test_in_use_hypotheses :
    ¬ Untouched ((inFlight 4#32 { ready with dst := 1#Config.aw }).rangesRead) 0 1 ∧
    ¬ Untouched ((inFlight 4#32 { ready with dst := 1#Config.aw }).rangesWritten) 1 1 ∧
    ¬ Untouched ((inFlight 5#32 keyed).rangesRead) 0 1 ∧ ¬ Untouched ((inFlight 6#32 keyed).rangesRead) 1 1 := by
  have hl := len_one
  have hk := len_two
  have h0 := addr_zero
  have h1 := addr_one
  have dx : decode 4#32 = .command .xform := by decide
  have dk : decode 5#32 = .command .ksetup := by decide
  have de : decode 6#32 = .command .encrypt := by decide
  refine ⟨fun h => absurd (h ⟨(0#Config.aw).toNat, (1#Config.lenw).toNat⟩ ?_ 0 (by omega) (by omega)) ?_,
    fun h => absurd (h ⟨(1#Config.aw).toNat, (1#Config.lenw).toNat⟩ ?_ 1 (by omega) (by omega)) ?_,
    fun h => absurd (h ⟨(0#Config.aw).toNat, (2#Config.lenw).toNat⟩ ?_ 0 (by omega) (by omega)) ?_,
    fun h => absurd (h ⟨(0#Config.aw).toNat, (2#Config.lenw).toNat⟩ ?_ 1 (by omega) (by omega)) ?_⟩
  · simp [State.rangesRead, inFlight, dx, State.readRanges, State.srcRange, ready, State.reset]
  · simp [Region.holds, hl]
  · simp [State.rangesWritten, inFlight, dx, State.writeRanges, State.dstRange, ready]
  · simp [Region.holds, hl, h1]
  · simp [State.rangesRead, inFlight, dk, State.readRanges, State.keyRange, keyed, State.reset]
  · simp [Region.holds, hk]
  · simp [State.rangesRead, inFlight, de, State.readRanges, State.keyRange, keyed, State.reset]
  · simp [Region.holds, hk]

/-- ForbiddenHostAccessIsRefused: the first register number that is none, the last that is no STATUS, and for each numeric register
the least number too wide for it. -/
theorem test_forbidden_hypotheses :
    (9 : Nat) < 10 ∧ (8 : Nat) ≠ 9 ∧ ∀ p ∈ [(2, 64), (3, Config.aw), (4, Config.aw), (5, Config.lenw), (6, Config.aw),
      (7, Config.lenw), (8, 32), (9, 32)], ∃ x, 2 ^ p.2 ≤ x :=
  ⟨by decide, by decide, fun p _ => ⟨2 ^ p.2, Nat.le_refl _⟩⟩

/-- ForbiddenHostAccessIsRefused: one byte at the first address that is none, which no command in flight uses; and one byte that is
left out. -/
theorem test_outside_hypotheses :
    2 ^ Config.aw < 2 ^ Config.aw + 1 ∧
    Untouched ((inFlight 4#32 ready).rangesRead ++ (inFlight 4#32 ready).rangesWritten) (2 ^ Config.aw) 1 ∧
    (holed State.reset).busy = false ∧ 0 + 1 ≤ 2 ^ Config.aw ∧ ¬ (holed State.reset).AdmitsRange 0 1 := by
  have ha := Config.two_le_space
  have hl := len_one
  have dx : decode 4#32 = .command .xform := by decide
  refine ⟨Nat.lt_succ_self _, fun u hu x h1 h2 => ?_, rfl, by omega, fun h => absurd (h 0 (by decide) (by decide)) (by decide)⟩
  simp only [State.rangesRead, State.rangesWritten, inFlight, dx, State.readRanges, State.writeRanges, State.srcRange,
    State.dstRange, ready, State.reset, List.cons_append, List.nil_append, List.mem_cons, List.not_mem_nil, or_false,
    or_self] at hu
  rw [hu]
  simp [Region.holds, hl]
  omega

/-- CommandInFlightKeepsItsOperands: the host reads STATUS, and stores the byte after the one XFORM works on. -/
theorem test_in_flight_hypotheses :
    (∃ t, step { inFlight 4#32 ready with host := [.read 9] } = .next t ∧ t.busy = true) ∧
    ∃ t, step { inFlight 4#32 ready with host := [.store 1 [0xee#8]] } = .next t ∧ t.busy = true := by
  have ha := Config.two_le_space
  have hl := len_one
  have dx : decode 4#32 = .command .xform := by decide
  have hu : Untouched ((inFlight 4#32 ready).rangesRead ++ (inFlight 4#32 ready).rangesWritten) 1 1 := by
    intro u hu x h1 h2
    simp only [State.rangesRead, State.rangesWritten, inFlight, dx, State.readRanges, State.writeRanges, State.srcRange,
      State.dstRange, ready, State.reset, List.cons_append, List.nil_append, List.mem_cons, List.not_mem_nil, or_false,
      or_self] at hu
    rw [hu]
    simp [Region.holds, hl]
    omega
  have busy : hostStoreBusy 1 [0xee#8] (inFlight 4#32 ready) = hostStore 1 [0xee#8] (inFlight 4#32 ready) :=
    if_neg (Bool.eq_false_iff.mp ((any_meets_false_iff _ _ _).mpr hu))
  have lands : hostStore 1 [0xee#8] (inFlight 4#32 ready) =
      .next { inFlight 4#32 ready with mem := Memory.writeBytes [] 1 [0xee#8] } := if_pos ha
  have first : step { inFlight 4#32 ready with host := [.store 1 [0xee#8]] } = hostStoreBusy 1 [0xee#8] (inFlight 4#32 ready) :=
    step_busy _ (.store 1 [0xee#8]) [] rfl rfl
  exact ⟨⟨_, rfl, rfl⟩, _, first.trans (busy.trans lands), rfl⟩

/-- HostLoadReturnsWhatWasStored: two bytes in a memory of two. -/
theorem test_store_load_hypotheses :
    0 + ([0xee#8, 0x11#8] : List Byte).length ≤ 2 ^ Config.aw ∧ State.reset.AdmitsRange 0 2 :=
  ⟨Config.two_le_space, admits_all _ rfl _ _⟩

/-- ResetDuringCommandAbandonsIt, LandedBytesHaveTheirTransactions: the command in flight would have answered. Which byte has landed
is free, so no state shows one that must have. -/
theorem test_reset_during_hypotheses :
    ∃ u, runCommand { ready with cmd := 4#32, busy := true, host := [] } = .next u :=
  ⟨_, exec_xform_runs { ready with cmd := 4#32, busy := true, host := [] } test_xform_runs.1⟩

/-- ScheduleChangesOnlyByResetKsetupEncrypt: a reset that gives up a schedule. -/
theorem test_schedule_change_hypotheses :
    ∃ t, step { ready with host := [.reset] } = .next t ∧ t.schedV ≠ ({ ready with host := [.reset] } : State).schedV :=
  ⟨_, rfl, by decide⟩

/-- OnlyCmdWriteStartsWork, ParametersNeverChange: a CMD write. -/
theorem test_start_hypotheses :
    ∃ t, step { State.reset with host := [.write 8 (.number 1)] } = .next t ∧ t.busy = true := ⟨_, rfl, rfl⟩

/-- EveryStepKeepsInvariant: a state with a stored byte and a schedule that key setup gave, and its step. -/
theorem test_invariant_hypotheses :
    State.Inv { keyed with mem := [(1, 0xee#8)], schedV := true, sched := keyed.derivedSchedule, port := [keyed.setupEvent] } ∧
    ∃ t, step { keyed with mem := [(1, 0xee#8)], schedV := true, sched := keyed.derivedSchedule, port := [keyed.setupEvent] } =
      .next t := by
  have ha := Config.two_le_space
  refine ⟨⟨⟨⟨List.pairwise_singleton _ _, ?_⟩, ?_⟩, ?_, fun _ => ?_⟩, _, rfl⟩
  · intro c hc
    rw [List.mem_singleton.mp hc]
    decide
  · intro c hc
    rw [List.mem_singleton.mp hc]
    omega
  · intro e he
    rw [List.mem_singleton.mp he]
    exact ⟨⟨rfl, (validKeyLen_iff _ _).mp test_key_runs.1.1.1, Memory.length_readBytes _ _ _⟩, trivial⟩
  · exact ⟨_, _, _, List.mem_singleton.mpr rfl, rfl⟩

end Sys2Proof.Tests
end

section
/-! PROOFS. MemAdmit and VALID_KEYLENS are fixed (00_scope.md R6): no command's result, no move of the host and no reset
changes them. -/

namespace Sys2Proof.Machine

/-- No command touches its latch, the parameters, the host's moves or what its reads returned. -/
theorem resultOf_sameSurroundings (i : Instr) (s : State) : s.SameSurroundings (resultOf i s) := by
  cases i with
  | inc | add => simp [resultOf, State.SameSurroundings]
  | gen => cases hv : s.schedV <;> simp [resultOf, State.SameSurroundings, hv]
  | xform =>
    obtain ⟨-, h⟩ | ⟨-, -, h⟩ | ⟨-, -, h⟩ := xformResult_cases s <;> simp [resultOf, h, State.SameSurroundings]
  | ksetup =>
    obtain ⟨-, h⟩ | ⟨-, -, h⟩ | ⟨-, h⟩ := ksetupResult_cases s <;> simp [resultOf, h, State.SameSurroundings]
  | encrypt =>
    obtain ⟨-, h⟩ | ⟨-, -, h⟩ | ⟨-, -, h⟩ | ⟨-, -, h⟩ := encryptResult_cases s <;>
      simp [resultOf, h, State.SameSurroundings]

/-- The CORE's turn, on a legal word or an illegal one, touches none of them either. -/
theorem runCommand_sameSurroundings (s t : State) (h : runCommand s = .next t) : s.SameSurroundings t := by
  obtain ⟨i, -, hi⟩ | ⟨-, -, rfl⟩ := runCommand_next s t h
  · rw [exec_next i s t hi]
    exact resultOf_sameSurroundings i s
  · exact ⟨rfl, rfl, rfl, rfl, rfl⟩

/-- A reset during a command answers the reset of the state at that moment with some memory and some port transactions
(R212). -/
theorem abandon_next (s t : State) (h : abandon s = .next t) :
    ∃ u, runCommand s = .next u ∧
      t = { s with mem := landedMemory s u.mem, port := landedPort s u.port }.assertReset := by
  unfold abandon at h
  split at h
  next u hu =>
    injection h with h
    exact ⟨u, hu, h.symm⟩
  all_goals cases h

/-- MemAdmit and VALID_KEYLENS are in `t` what they are in `s` (R6). -/
def State.SameParameters (s t : State) : Prop := t.unmapped = s.unmapped ∧ t.keyLens = s.keyLens

/-- A move of the host with the CORE idle keeps the parameters. -/
theorem hostMoveIdle_sameParameters (m : HostMove) (s t : State) (h : hostMoveIdle m s = .next t) :
    s.SameParameters t := by
  obtain ⟨w, rfl, -⟩ | ⟨-, rfl⟩ | hk := hostMoveIdle_cases m s t h
  · exact ⟨s.issue_unmapped w, s.issue_keyLens w⟩
  · exact ⟨s.assertReset_unmapped, s.assertReset_keyLens⟩
  · exact ⟨hk.unmapped, hk.keyLens⟩

/-- A move of the host with a command in flight, other than `wait`, keeps the parameters. -/
theorem hostMoveBusy_sameParameters (m : HostMove) (s t : State) (hm : m ≠ .wait) (h : hostMoveBusy m s = .next t) :
    s.SameParameters t := by
  obtain ⟨-, ha⟩ | ⟨_, _, _, rfl, -⟩ := hostMoveBusy_cases m s t hm h
  · obtain ⟨u, -, rfl⟩ := abandon_next s t ha
    exact ⟨rfl, rfl⟩
  · exact ⟨rfl, rfl⟩

/-- Settles O40: the CORE's turn keeps all that surrounds the command, and each move of the host keeps the parameters. -/
theorem parametersNeverChange : Obligations.ParametersNeverChange := by
  intro s t h
  obtain ⟨-, -, rfl⟩ | ⟨-, hr⟩ | ⟨m, rest, -, -, hi⟩ | ⟨m, rest, -, hm, -, hb⟩ := step_next s t h
  · exact ⟨rfl, rfl⟩
  · obtain ⟨-, hu, hk, -, -⟩ := runCommand_sameSurroundings s.afterWait t hr
    exact ⟨hu, hk⟩
  · exact hostMoveIdle_sameParameters m { s with host := rest } t hi
  · exact hostMoveBusy_sameParameters m { s with host := rest } t hm hb

end Sys2Proof.Machine
end

section
/-! PROOFS. Who changes the key schedule (10_state.md R20, 43_wrapper.md R144). -/

namespace Sys2Proof.Machine

/-- The commands that set up no key keep SCHED and SCHED_V (R144). -/
theorem resultOf_keepsSchedule (i : Instr) (s : State) (hk : i ≠ .ksetup) (he : i ≠ .encrypt) :
    (resultOf i s).schedV = s.schedV ∧ (resultOf i s).sched = s.sched := by
  cases i with
  | inc | add => exact ⟨rfl, rfl⟩
  | gen => cases hv : s.schedV <;> simp [resultOf, hv]
  | xform => obtain ⟨-, h⟩ | ⟨-, -, h⟩ | ⟨-, -, h⟩ := xformResult_cases s <;> simp [resultOf, h]
  | ksetup => exact absurd rfl hk
  | encrypt => exact absurd rfl he

/-- The CORE's turn changes the schedule only when the command in flight is KSETUP or ENCRYPT. -/
theorem runCommand_keepsSchedule (s t : State) (h : runCommand s = .next t)
    (hd : ¬ (decode s.cmd = .command .ksetup ∨ decode s.cmd = .command .encrypt)) :
    t.schedV = s.schedV ∧ t.sched = s.sched := by
  obtain ⟨i, hi, hx⟩ | ⟨-, -, rfl⟩ := runCommand_next s t h
  · rw [exec_next i s t hx]
    refine resultOf_keepsSchedule i s ?_ ?_ <;> rintro rfl
    · exact hd (.inl hi)
    · exact hd (.inr hi)
  · exact ⟨rfl, rfl⟩

/-- A host move with the CORE idle changes the schedule only when it is the reset input. -/
theorem hostMoveIdle_keepsSchedule (m : HostMove) (s t : State) (h : hostMoveIdle m s = .next t) (hm : m ≠ .reset) :
    t.schedV = s.schedV ∧ t.sched = s.sched := by
  obtain ⟨w, rfl, -⟩ | ⟨hr, -⟩ | hk := hostMoveIdle_cases m s t h
  · exact ⟨rfl, rfl⟩
  · exact absurd hr hm
  · exact ⟨hk.schedV, hk.sched⟩

/-- A host move with a command in flight, the CORE's turn apart, changes the schedule only when it is the reset input. -/
theorem hostMoveBusy_keepsSchedule (m : HostMove) (s t : State) (h : hostMoveBusy m s = .next t) (hw : m ≠ .wait)
    (hm : m ≠ .reset) : t.schedV = s.schedV ∧ t.sched = s.sched := by
  obtain ⟨hr, -⟩ | ⟨_, _, _, rfl, -⟩ := hostMoveBusy_cases m s t hw h
  · exact absurd hr hm
  · exact ⟨rfl, rfl⟩

/-- Settles O27: of each way a step can go, only the reset input and the CORE's turn on KSETUP or ENCRYPT do not keep the
schedule. -/
theorem scheduleChangesOnlyByResetKsetupEncrypt : Obligations.ScheduleChangesOnlyByResetKsetupEncrypt := by
  intro s t h hchange
  by_contra hno
  obtain ⟨hreset, hturn⟩ := not_or.mp hno
  have hm : ∀ m rest, s.host = m :: rest → m ≠ .reset := fun m rest hh hr => hreset ⟨rest, hr ▸ hh⟩
  suffices t.schedV = s.schedV ∧ t.sched = s.sched from hchange.elim (absurd this.1) (absurd this.2)
  obtain ⟨-, -, rfl⟩ | ⟨hc, hr⟩ | ⟨m, rest, hh, -, hi⟩ | ⟨m, rest, hh, hw, -, hb⟩ := step_next s t h
  · exact ⟨rfl, rfl⟩
  · exact runCommand_keepsSchedule s.afterWait t hr fun hd => hturn ⟨hc, hd⟩
  · exact hostMoveIdle_keepsSchedule m { s with host := rest } t hi (hm m rest hh)
  · exact hostMoveBusy_keepsSchedule m { s with host := rest } t hb hw (hm m rest hh)

end Sys2Proof.Machine
end

section
/-! PROOFS. What every step keeps: canonical memory inside the address space, the port the CORE's own, a schedule only from key
setup (10_state.md R12, 20_memory.md R58, 44_cipher_port.md R161, R162). The key notion is `MayFollow`: each new transaction
is justified by those before it, so that any first part of them is too, which is what an abandoned command leaves (R212). -/

namespace Sys2Proof.Machine

/-- The transactions may follow the record `port`: each `BC.SETUP` is well formed and each `BC.ENC` has a schedule that an earlier
`BC.SETUP` gave. -/
def MayFollow (keyLens : List Nat) : List PortEvent → List PortEvent → Prop
  | _, [] => True
  | port, e :: made => e.SetupOk keyLens ∧ e.EncOk port ∧ MayFollow keyLens (port ++ [e]) made

theorem Derived.append {port : List PortEvent} {sched : Schedule} (h : Derived port sched) (made : List PortEvent) :
    Derived (port ++ made) sched := by
  obtain ⟨dir, key, n, hmem, rfl⟩ := h
  exact ⟨dir, key, n, List.mem_append_left _ hmem, rfl⟩

theorem PortEvent.EncOk.append {port : List PortEvent} {e : PortEvent} (h : e.EncOk port) (made : List PortEvent) :
    e.EncOk (port ++ made) := by
  cases e with
  | setup dir key n => trivial
  | enc sched block => exact Derived.append h made

/-- The first few of the transactions may follow too. -/
theorem MayFollow.take {keyLens : List Nat} {port made : List PortEvent} (h : MayFollow keyLens port made) (k : Nat) :
    MayFollow keyLens port (made.take k) := by
  induction made generalizing port k with
  | nil => simpa using h
  | cons e made ih =>
    cases k with
    | zero => trivial
    | succ k =>
      obtain ⟨hsetup, henc, hrest⟩ := h
      exact ⟨hsetup, henc, ih hrest k⟩

/-- A record of the CORE's own transactions stays one when more are made that may follow it. -/
theorem MayFollow.portOk {s t : State} {made : List PortEvent} (hs : s.PortOk) (hk : t.keyLens = s.keyLens)
    (hp : t.port = s.port ++ made) (hm : MayFollow s.keyLens s.port made) : t.PortOk := by
  unfold State.PortOk at hs ⊢
  rw [hk, hp]
  clear hk hp t
  generalize s.port = port at hs hm ⊢
  induction made generalizing port with
  | nil => simpa using hs
  | cons e made ih =>
    obtain ⟨hsetup, henc, hrest⟩ := hm
    have hport : ∀ x ∈ port ++ [e], x.SetupOk s.keyLens ∧ x.EncOk (port ++ [e]) := by
      intro x hx
      rcases List.mem_append.mp hx with hx | hx
      · exact ⟨(hs x hx).1, (hs x hx).2.append [e]⟩
      · rw [List.mem_singleton.mp hx]
        exact ⟨hsetup, henc.append [e]⟩
    simpa using ih (port ++ [e]) hport hrest

/-- A transform may generate with a schedule that is derived already. -/
theorem mayFollow_encEvents {keyLens : List Nat} {port : List PortEvent} {sched : Schedule} (h : Derived port sched)
    (c : Block) (len : Nat) : MayFollow keyLens port (encEvents sched c len) := by
  unfold encEvents
  induction List.range ((len + 15) / 16) generalizing port with
  | nil => trivial
  | cons k ks ih => exact ⟨trivial, h, ih (h.append _)⟩

/-- The `BC.SETUP` of a legal key is well formed (R145, R161). -/
theorem setupEvent_setupOk (s : State) (h : s.LegalKey) : s.setupEvent.SetupOk s.keyLens :=
  ⟨rfl, (validKeyLen_iff s _).mp h.1, Memory.length_readBytes _ _ _⟩

/-- Once key setup has been asked, its answer is a derived schedule. -/
theorem derived_derivedSchedule (s : State) (port : List PortEvent) :
    Derived (port ++ [s.setupEvent]) s.derivedSchedule :=
  ⟨_, _, _, List.mem_append_right _ (List.mem_singleton.mpr rfl), rfl⟩

/-- The port transactions of a command may follow those on record. -/
theorem resultOf_port (i : Instr) (s : State) (hs : s.SchedOk) :
    ∃ made, (resultOf i s).port = s.port ++ made ∧ MayFollow s.keyLens s.port made := by
  have silent : ∃ made, s.port = s.port ++ made ∧ MayFollow s.keyLens s.port made := ⟨[], by simp, trivial⟩
  cases i with
  | inc | add => exact silent
  | gen =>
    cases hv : s.schedV with
    | false => simpa [resultOf, hv] using silent
    | true => exact ⟨[.enc s.sched s.ctr], by simp [resultOf, hv], trivial, hs hv, trivial⟩
  | xform =>
    obtain ⟨-, h⟩ | ⟨-, -, h⟩ | ⟨hv, -, h⟩ := xformResult_cases s <;> simp only [resultOf, h]
    · exact silent
    · exact silent
    · exact ⟨_, xferEnd_port s s.sched, mayFollow_encEvents (hs hv) _ _⟩
  | ksetup =>
    obtain ⟨-, h⟩ | ⟨-, -, h⟩ | ⟨hk, h⟩ := ksetupResult_cases s <;> simp only [resultOf, h]
    · exact silent
    · exact silent
    · exact ⟨[s.setupEvent], rfl, setupEvent_setupOk s hk, trivial, trivial⟩
  | encrypt =>
    obtain ⟨-, h⟩ | ⟨-, -, h⟩ | ⟨hk, -, h⟩ | ⟨hk, -, h⟩ := encryptResult_cases s <;> simp only [resultOf, h]
    · exact silent
    · exact silent
    · exact ⟨[s.setupEvent], rfl, setupEvent_setupOk s hk, trivial, trivial⟩
    · refine ⟨s.setupEvent :: encEvents s.derivedSchedule s.ctr s.len.toNat, ?_, setupEvent_setupOk s hk, trivial,
        mayFollow_encEvents (derived_derivedSchedule s s.port) _ _⟩
      simp [xferEnd_port]

/-- `XFORM_BODY` on legal buffers keeps memory canonical and inside the address space. -/
theorem transformed_memoryOk (s : State) (sched : Schedule) (hl : s.LegalBuffers) (hm : s.MemoryOk) :
    (s.transformed sched).MemoryOk :=
  ⟨xferEnd_wf s sched hm.1, xferEnd_below s sched hl hm.2⟩

/-- A command keeps memory canonical and inside the address space. -/
theorem resultOf_memoryOk (i : Instr) (s : State) (hm : s.MemoryOk) : (resultOf i s).MemoryOk := by
  cases i with
  | inc | add => exact hm
  | gen => cases hv : s.schedV <;> simpa [resultOf, hv, State.MemoryOk] using hm
  | xform =>
    obtain ⟨-, h⟩ | ⟨-, -, h⟩ | ⟨-, hl, h⟩ := xformResult_cases s <;> simp only [resultOf, h]
    · exact hm
    · exact hm
    · exact transformed_memoryOk s s.sched hl hm
  | ksetup => obtain ⟨-, h⟩ | ⟨-, -, h⟩ | ⟨-, h⟩ := ksetupResult_cases s <;> simp only [resultOf, h] <;> exact hm
  | encrypt =>
    obtain ⟨-, h⟩ | ⟨-, -, h⟩ | ⟨-, -, h⟩ | ⟨-, hl, h⟩ := encryptResult_cases s <;> simp only [resultOf, h]
    · exact hm
    · exact hm
    · exact hm
    · exact transformed_memoryOk { s with port := s.port ++ [s.setupEvent] } s.derivedSchedule hl hm

/-- After a command a schedule held is one that key setup gave: the old one, or the one just derived (R12). -/
theorem resultOf_schedOk (i : Instr) (s : State) (hs : s.SchedOk) : (resultOf i s).SchedOk := by
  by_cases hk : i = .ksetup
  · subst hk
    obtain ⟨-, h⟩ | ⟨-, -, h⟩ | ⟨-, h⟩ := ksetupResult_cases s <;> simp only [resultOf, h]
    · exact fun hv => nomatch hv
    · exact fun hv => nomatch hv
    · exact fun _ => derived_derivedSchedule s s.port
  by_cases he : i = .encrypt
  · subst he
    obtain ⟨-, h⟩ | ⟨-, -, h⟩ | ⟨-, -, h⟩ | ⟨-, -, h⟩ := encryptResult_cases s <;> simp only [resultOf, h] <;>
      exact fun hv => nomatch hv
  · obtain ⟨hv, hsched⟩ := resultOf_keepsSchedule i s hk he
    obtain ⟨made, hp, -⟩ := resultOf_port i s hs
    unfold State.SchedOk
    rw [hv, hsched, hp]
    exact fun h => (hs h).append made

/-- The CORE's turn keeps the invariant, and what it adds to the port may follow what stood there. -/
theorem runCommand_inv (s t : State) (hs : s.Inv) (h : runCommand s = .next t) :
    t.Inv ∧ ∃ made, t.port = s.port ++ made ∧ MayFollow s.keyLens s.port made := by
  obtain ⟨-, -, hk, -, -⟩ := runCommand_sameSurroundings s t h
  obtain ⟨i, -, hi⟩ | ⟨-, -, rfl⟩ := runCommand_next s t h
  · obtain rfl := exec_next i s t hi
    obtain ⟨made, hp, hm⟩ := resultOf_port i s hs.sched
    exact ⟨⟨resultOf_memoryOk i s hs.memory, hm.portOk hs.port hk hp, resultOf_schedOk i s hs.sched⟩, made, hp, hm⟩
  · exact ⟨⟨hs.memory, hs.port, hs.sched⟩, [], by simp, trivial⟩

/-- Writing back a byte of a memory that lists nothing beyond the bound lists nothing beyond it either: there that memory reads as
an unlisted address does. -/
theorem Memory.below_write_read (m final : Memory) (a bound : Nat) (hm : m.below bound) (hf : final.below bound) :
    (m.write a (final.read a)).below bound := by
  by_cases ha : a < bound
  · exact Memory.below_write m a _ bound hm ha
  · have hread : final.read a = Memory.unlisted :=
      Memory.read_of_forall_ne final a fun c hc => by have := hf c hc; omega
    rw [Memory.write, if_pos hread]
    exact fun c hc => hm c (List.mem_of_mem_filter hc)

theorem landBytes_below (picked : Nat → Bool) (base : Nat) (final : Memory) (n bound : Nat) (m : Memory)
    (hm : m.below bound) (hf : final.below bound) : (landBytes picked base final n m).below bound := by
  induction n with
  | zero => exact hm
  | succ n ih =>
    simp only [landBytes]
    split
    · exact Memory.below_write_read _ final _ bound ih hf
    · exact ih

/-- A reset during a command leaves memory canonical and inside the address space, on the port a first part of the command's
transactions, and no schedule (R212). -/
theorem abandon_inv (s t : State) (hs : s.Inv) (h : abandon s = .next t) : t.Inv := by
  obtain ⟨u, hu, rfl⟩ := abandon_next s t h
  obtain ⟨⟨humem, -, -⟩, made, hp, hm⟩ := runCommand_inv s u hs hu
  refine ⟨?_, (hm.take s.transactionsMade).portOk hs.port rfl ?_, fun hv => nomatch hv⟩
  · show (landedMemory s u.mem).wf ∧ (landedMemory s u.mem).below (2 ^ Config.aw)
    obtain hl | ⟨-, hl⟩ := landedMemory_cases s u.mem <;> rw [hl]
    · exact hs.memory
    · exact ⟨landBytes_wf _ _ _ _ _ hs.memory.1, landBytes_below _ _ _ _ _ _ hs.memory.2 humem.2⟩
  · show s.port ++ (u.port.drop s.port.length).take s.transactionsMade = _
    rw [hp, List.drop_left]

/-- A host move that neither issues nor resets keeps the invariant. -/
theorem HostKeeps.inv {s t : State} (hk : HostKeeps s t) (hs : s.Inv) : t.Inv where
  memory := by
    unfold State.MemoryOk
    obtain hm | ⟨a, d, hd, hm⟩ := hk.mem <;> rw [hm]
    · exact hs.memory
    · exact ⟨Memory.wf_writeBytes d _ a hs.memory.1, Memory.below_writeBytes _ d _ a hs.memory.2 hd⟩
  port := by
    unfold State.PortOk
    rw [hk.port, hk.keyLens]
    exact hs.port
  sched := by
    unfold State.SchedOk
    rw [hk.schedV, hk.sched, hk.port]
    exact hs.sched

theorem hostMoveIdle_inv (m : HostMove) (s t : State) (hs : s.Inv) (h : hostMoveIdle m s = .next t) : t.Inv := by
  obtain ⟨w, rfl, -⟩ | ⟨-, rfl⟩ | hk := hostMoveIdle_cases m s t h
  · exact ⟨hs.memory, hs.port, hs.sched⟩
  · exact ⟨hs.memory, hs.port, fun hv => nomatch hv⟩
  · exact hk.inv hs

theorem hostMoveBusy_inv (m : HostMove) (s t : State) (hs : s.Inv) (hw : m ≠ .wait) (h : hostMoveBusy m s = .next t) :
    t.Inv := by
  obtain ⟨-, ha⟩ | ⟨mem, reads, draws, rfl, hmem⟩ := hostMoveBusy_cases m s t hw h
  · exact abandon_inv s t hs ha
  · exact HostKeeps.inv (s := s)
      ⟨rfl, rfl, rfl, rfl, rfl, rfl, hmem.imp_right fun ⟨a, d, hd, _, hm⟩ => ⟨a, d, hd, hm⟩⟩ hs

/-- The invariant says nothing of the host's moves still to come. -/
theorem State.Inv.withHost {s : State} (hs : s.Inv) (moves : List HostMove) : State.Inv { s with host := moves } :=
  ⟨hs.memory, hs.port, hs.sched⟩

/-- Settles O37: the CORE's turn and each move of the host, a reset during a command included, keep the invariant. -/
theorem everyStepKeepsInvariant : Obligations.EveryStepKeepsInvariant := by
  intro s t hs h
  obtain ⟨-, -, rfl⟩ | ⟨-, hr⟩ | ⟨m, rest, -, -, hi⟩ | ⟨m, rest, -, hw, -, hb⟩ := step_next s t h
  · exact hs
  · exact (runCommand_inv s.afterWait t (hs.withHost s.host.tail) hr).1
  · exact hostMoveIdle_inv m _ t (hs.withHost rest) hi
  · exact hostMoveBusy_inv m _ t (hs.withHost rest) hw hb

end Sys2Proof.Machine
end

section
/-! PROOFS. The working counter within the transform (10_state.md R22), and that ERR keeps no history (R20, 60_exceptions.md
R189). -/

namespace Sys2Proof.Machine

/-- `inc128` adds one to the counter's value (R81). -/
theorem val128_inc128 (c : Block) : val128 (inc128 c) = (val128 c + 1) % 2 ^ 128 := by
  have h := beNum_incFrom 16 c (Nat.le_refl 16)
  norm_num at h ⊢
  exact h

theorem val128_incTimes (n : Nat) (c : Block) : val128 (incTimes n c) = (val128 c + n) % 2 ^ 128 := by
  induction n with
  | zero => rw [incTimes, Nat.add_zero, Nat.mod_eq_of_lt (val128_lt c)]
  | succ n ih => rw [incTimes, val128_inc128, ih, Nat.mod_add_mod, Nat.add_assoc]

/-- A byte count holds fewer full chunks than the chunk index can count (R22). -/
theorem chunkCount_lt (len : BitVec Config.lenw) : len.toNat / 16 < 2 ^ (Config.lenw - 4) := by
  have hw : 2 ^ Config.lenw = 2 ^ (Config.lenw - 4) * 16 := by
    rw [← Nat.pow_sub_mul_pow 2 (Nat.le_trans (by decide : 4 ≤ 5) Config.five_le_lenw)]
  exact Nat.div_lt_of_lt_mul (by have := len.isLt; omega)

/-- Settles O22: each chunk counts one and increments the working counter once. -/
theorem workingCounterFollowsChunkIndex : Obligations.WorkingCounterFollowsChunkIndex := by
  intro s sched k
  refine ⟨?_, ?_, chunkCount_lt s.len⟩
  · rw [chunks_idx]
    exact Nat.zero_add k
  · rw [chunks_wc, val128_incTimes]
    rfl

/-- No command's result depends on the ERR and BUSY it started with: it writes both (R20). -/
theorem resultOf_withErrBusy (i : Instr) (s : State) (e : ErrCode) (b : Bool) :
    resultOf i { s with err := e, busy := b } = resultOf i s := by
  cases i with
  | inc | add => rfl
  | gen => exact ite_congr rfl (fun _ => rfl) fun _ => rfl
  | xform =>
    have hx : State.xformError { s with err := e, busy := b } = s.xformError := rfl
    simp only [resultOf, State.xformResult, hx]
    cases s.xformError <;> rfl
  | ksetup =>
    have hk : State.keyError { s with err := e, busy := b } = s.keyError := rfl
    simp only [resultOf, State.ksetupResult, hk]
    cases s.keyError <;> rfl
  | encrypt =>
    have hk : State.keyError { s with err := e, busy := b } = s.keyError := rfl
    have hb : State.bufferError { s with err := e, busy := b } = s.bufferError := rfl
    simp only [resultOf, State.encryptResult, hk, hb]
    cases s.keyError with
    | some => rfl
    | none => cases s.bufferError <;> rfl

/-- The platform's check does not look at ERR or BUSY. -/
theorem admittedFor_withErrBusy (i : Instr) (s : State) (e : ErrCode) (b : Bool) :
    admittedFor i { s with err := e, busy := b } = admittedFor i s := by
  cases i <;> rfl

/-- Every command ends idle (R20, R68). -/
theorem resultOf_busy (i : Instr) (s : State) : (resultOf i s).busy = false := by
  cases i with
  | inc | add => rfl
  | gen => cases hv : s.schedV <;> simp [resultOf, hv]
  | xform => obtain ⟨-, h⟩ | ⟨-, -, h⟩ | ⟨-, -, h⟩ := xformResult_cases s <;> simp [resultOf, h]
  | ksetup => obtain ⟨-, h⟩ | ⟨-, -, h⟩ | ⟨-, h⟩ := ksetupResult_cases s <;> simp [resultOf, h]
  | encrypt =>
    obtain ⟨-, h⟩ | ⟨-, -, h⟩ | ⟨-, -, h⟩ | ⟨-, -, h⟩ := encryptResult_cases s <;> simp [resultOf, h]

/-- Settles O32: a command is its result behind the platform's check, and neither depends on ERR or BUSY. -/
theorem errorDoesNotStick : Obligations.ErrorDoesNotStick := by
  intro i s e b
  constructor
  · rw [exec_eq, exec_eq, admittedFor_withErrBusy, resultOf_withErrBusy]
  · intro t h
    rw [exec_next i s t h]
    exact resultOf_busy i s

end Sys2Proof.Machine
end

section
/-! PROOFS. The host's accesses to the registers and to memory: what STATUS reads as, what a read and a write with the CORE idle do,
and which accesses stop the run (10_state.md R18 to R20, R24, 20_memory.md R40, R59, 70_reset_and_hazards.md R214, R215). -/

namespace Sys2Proof.Machine

@[simp] theorem Reg.ofNumber_number (reg : Reg) : Reg.ofNumber reg.number = some reg := by cases reg <;> rfl

/-- The registers are numbered 0 to 9 (R24 rule 3). -/
theorem Reg.exists_number (r : Nat) (h : r ≤ 9) : ∃ reg : Reg, r = reg.number := by
  obtain ⟨reg, hreg⟩ : ∃ reg, Reg.ofNumber r = some reg := by interval_cases r <;> exact ⟨_, rfl⟩
  refine ⟨reg, ?_⟩
  unfold Reg.ofNumber at hreg
  split at hreg <;> cases hreg <;> rfl

theorem Reg.ofNumber_above (r : Nat) (h : 9 < r) : Reg.ofNumber r = none := by
  obtain ⟨k, rfl⟩ : ∃ k, r = k + 10 := ⟨r - 10, by omega⟩
  rfl

/-- A host write to a register with the CORE idle. -/
theorem step_write (s : State) (reg : Reg) (v : HostValue) (rest : List HostMove) (hb : s.busy = false)
    (hh : s.host = .write reg.number v :: rest) : step s = writeReg reg v { s with host := rest } := by
  rw [step_idle s _ rest hb hh, hostMoveIdle, hostWrite, Reg.ofNumber_number]

/-- A host read of a register with the CORE idle. -/
theorem step_read (s : State) (reg : Reg) (rest : List HostMove) (hb : s.busy = false)
    (hh : s.host = .read reg.number :: rest) :
    step s = .next ((State.afterRead { s with host := rest } reg).answer (readReg reg { s with host := rest })) := by
  rw [step_idle s _ rest hb hh, hostMoveIdle, hostRead, Reg.ofNumber_number]

/-- STATUS is the number its three fields make (R19). -/
theorem statusOf_toNat : ∀ (busy schedV : Bool) (err : BitVec 4),
    (statusOf busy schedV err).toNat = busy.toNat + 2 * schedV.toNat + 16 * err.toNat := by
  decide

/-- Settles O41: the layout is `statusOf_toNat`; a write to STATUS is taken and leaves the state alone. -/
theorem statusWordLayout : Obligations.StatusWordLayout := by
  refine ⟨fun s => ⟨?_, ?_⟩, ⟨rfl, rfl, rfl, rfl, rfl⟩, rfl, rfl, rfl, ?_⟩
  · rw [statusWord, statusOf_toNat]
    cases s.busy <;> cases s.schedV <;> rfl
  · cases s.err <;> decide
  · intro s x rest hb hh hx
    rw [step_write s .status _ rest hb hh]
    exact if_pos hx

/-- Settles O42: the read returns a STATUS word whose BUSY is 1 and whose ERR and SCHED_V are free. -/
theorem statusReadWhileBusy : Obligations.StatusReadWhileBusy := by
  intro s rest hb hh
  refine ⟨(busyStatusWord s).toNat, ?_, ?_⟩
  · rw [step_busy s _ rest hb hh]
    rfl
  · have herr := (Config.freeBits .busyErr s.draws 4).isLt
    have hv := (Config.freeBool .busySchedV s.draws).toNat_le
    rw [busyStatusWord, statusOf_toNat, Bool.toNat_true]
    omega

/-- Settles O43: each register takes every value of its width. -/
theorem hostWriteReplacesRegister : Obligations.HostWriteReplacesRegister := by
  intro s rest hb
  refine ⟨fun b hh => ?_, fun b hh => ?_, fun v hh => ?_, fun v hh => ?_, fun v hh => ?_, fun v hh => ?_, fun v hh => ?_,
    fun v hh => ?_, fun v hh => ?_⟩
  · exact step_write s .ctr _ rest hb hh
  · exact step_write s .ks _ rest hb hh
  · rw [step_write s .n _ rest hb hh, writeReg, takeNumber_toNat]
  · rw [step_write s .src _ rest hb hh, writeReg, takeNumber_toNat]
  · rw [step_write s .dst _ rest hb hh, writeReg, takeNumber_toNat]
  · rw [step_write s .len _ rest hb hh, writeReg, takeNumber_toNat]
  · rw [step_write s .keyAddr _ rest hb hh, writeReg, takeNumber_toNat]
  · rw [step_write s .keyLen _ rest hb hh, writeReg, takeNumber_toNat]
  · rw [step_write s .status _ rest hb hh, writeReg, takeNumber_toNat]

/-- Settles O44: the value is the one `readReg` gives for the register of that number. -/
theorem hostReadReturnsRegister : Obligations.HostReadReturnsRegister := by
  intro s r rest hb hh hr
  obtain ⟨reg, rfl⟩ := Reg.exists_number r hr
  refine ⟨readReg reg s, ?_⟩
  rw [step_read s reg rest hb hh]
  cases reg
  case cmd => simpa [Reg.number, readReg, State.afterRead, State.answer] using (Config.freeBits .cmdRead s.draws 32).isLt
  all_goals simp [Reg.number, readReg, State.afterRead, State.answer, statusWord]

/-- A register takes no number too wide for it. -/
theorem takeNumber_too_wide (width x : Nat) (f : BitVec width → State) (h : 2 ^ width ≤ x) :
    takeNumber width x f = .refused .valueNotOfRegisterWidth :=
  if_neg (Nat.not_lt.mpr h)

/-- The two block registers take no number. -/
theorem writeReg_number_of_block (reg : Reg) (x : Nat) (s : State) (h : reg.number ≤ 1) :
    writeReg reg (.number x) s = .refused .valueNotOfRegisterWidth := by
  cases reg with
  | ctr | ks => rfl
  | _ => exact absurd h (by decide)

/-- The numeric registers take no block. -/
theorem writeReg_bytes_of_numeric (reg : Reg) (b : Block) (s : State) (h : 2 ≤ reg.number) :
    writeReg reg (.bytes b) s = .refused .valueNotOfRegisterWidth := by
  cases reg with
  | ctr | ks => exact absurd h (by decide)
  | _ => rfl

/-- No register takes bytes of data memory. -/
theorem writeReg_data (reg : Reg) (d : List Byte) (s : State) :
    writeReg reg (.data d) s = .refused .valueNotOfRegisterWidth := by
  cases reg <;> rfl

/-- A numeric register takes no number too wide for it. -/
theorem writeReg_too_wide (reg : Reg) (width x : Nat) (s : State)
    (h : (reg.number, width) ∈ [(2, 64), (3, Config.aw), (4, Config.aw), (5, Config.lenw), (6, Config.aw), (7, Config.lenw),
      (8, 32), (9, 32)]) (hx : 2 ^ width ≤ x) :
    writeReg reg (.number x) s = .refused .valueNotOfRegisterWidth := by
  cases reg <;> simp [Reg.number] at h <;> subst h <;> rw [writeReg, takeNumber_too_wide _ x _ hx]

/-- The host's access to data memory stops where there is none (R40) and where the platform does not admit it (R59). -/
theorem hostMemory_stops (s t : State) (a n : Nat) :
    (2 ^ Config.aw < a + n → hostMemory s ⟨a, n⟩ t = .fault .outsideMemory) ∧
    (a + n ≤ 2 ^ Config.aw → ¬ s.AdmitsRange a n → hostMemory s ⟨a, n⟩ t = .refused .notAdmitted) := by
  refine ⟨fun h => if_neg (Nat.not_le.mpr h), fun h hn => (if_pos h).trans ?_⟩
  rw [← admits_iff, Bool.not_eq_true] at hn
  exact (admittedOr_refused _ _ _).mpr ⟨hn, rfl⟩

/-- A store is the host's access to the range, unless the command in flight uses a byte of it (R215). -/
theorem step_store (s : State) (a : Nat) (d : List Byte) (rest : List HostMove)
    (hu : s.busy = true → Untouched (s.rangesRead ++ s.rangesWritten) a d.length) (hh : s.host = .store a d :: rest) :
    step s = hostStore a d { s with host := rest } := by
  by_cases hb : s.busy = true
  · rw [step_busy s _ rest hb hh]
    exact if_neg (Bool.eq_false_iff.mp ((any_meets_false_iff _ _ _).mpr (hu hb)))
  · exact step_idle s _ rest (Bool.eq_false_iff.mpr hb) hh

/-- A load is the host's access to the range, unless the command in flight writes a byte of it (R215). -/
theorem step_load (s : State) (a n : Nat) (rest : List HostMove)
    (hu : s.busy = true → Untouched s.rangesWritten a n) (hh : s.host = .load a n :: rest) :
    step s = hostLoad a n { s with host := rest } := by
  by_cases hb : s.busy = true
  · rw [step_busy s _ rest hb hh]
    exact if_neg (Bool.eq_false_iff.mp ((any_meets_false_iff _ _ _).mpr (hu hb)))
  · exact step_idle s _ rest (Bool.eq_false_iff.mpr hb) hh

/-- The test that refuses an access to a range in use. -/
theorem any_meets_of_not_untouched {ranges : List Region} {base n : Nat} (h : ¬ Untouched ranges base n) :
    (ranges.any fun u => u.meets ⟨base, n⟩) = true := by
  rwa [← any_meets_false_iff, Bool.not_eq_false] at h

/-- With a command in flight, the accesses that are refused (R24 rule 2, R215). -/
theorem busy_access_refused (s : State) (rest : List HostMove) (hb : s.busy = true) :
    (∀ r v, s.host = .write r v :: rest → step s = .refused .hostAccessWhileBusy) ∧
    (∀ r, r ≠ 9 → s.host = .read r :: rest → step s = .refused .hostAccessWhileBusy) ∧
    (∀ a d, ¬ Untouched (s.rangesRead ++ s.rangesWritten) a d.length → s.host = .store a d :: rest →
      step s = .refused .bufferInUse) ∧
    (∀ a n, ¬ Untouched s.rangesWritten a n → s.host = .load a n :: rest → step s = .refused .bufferInUse) := by
  refine ⟨fun r v hh => ?_, fun r hr hh => ?_, fun a d hu hh => ?_, fun a n hu hh => ?_⟩ <;>
    rw [step_busy s _ rest hb hh]
  · rfl
  · exact if_neg hr
  · exact if_pos (any_meets_of_not_untouched hu)
  · exact if_pos (any_meets_of_not_untouched hu)

/-- With the CORE idle, an access to a register that there is none of (R24 rule 3). -/
theorem idle_access_noSuchRegister (s : State) (r : Nat) (rest : List HostMove) (hb : s.busy = false) (hr : 9 < r) :
    (∀ v, s.host = .write r v :: rest → step s = .refused .noSuchRegister) ∧
    (s.host = .read r :: rest → step s = .refused .noSuchRegister) := by
  refine ⟨fun v hh => ?_, fun hh => ?_⟩
  · rw [step_idle s _ rest hb hh, hostMoveIdle, hostWrite, Reg.ofNumber_above r hr]
  · rw [step_idle s _ rest hb hh, hostMoveIdle, hostRead, Reg.ofNumber_above r hr]

/-- Settles O45: by who moves (`busy_access_refused`, the idle refusals of `writeReg`) and, for memory, `hostMemory_stops`. -/
theorem forbiddenHostAccessIsRefused : Obligations.ForbiddenHostAccessIsRefused := by
  intro s rest
  refine ⟨busy_access_refused s rest, fun hb => ⟨?_, ?_, ?_, ?_, ?_, ?_⟩, ?_, ?_⟩
  · exact fun r v hr => (idle_access_noSuchRegister s r rest hb hr).1 v
  · exact fun r hr => (idle_access_noSuchRegister s r rest hb hr).2
  · intro r width x hmem hx hh
    have hr : r ≤ 9 := by
      simp only [List.mem_cons, Prod.mk.injEq, List.not_mem_nil, or_false] at hmem
      omega
    obtain ⟨reg, rfl⟩ := Reg.exists_number r hr
    rw [step_write s reg _ rest hb hh, writeReg_too_wide reg width x _ hmem hx]
  · intro r x hr hh
    obtain ⟨reg, rfl⟩ := Reg.exists_number r (by omega)
    rw [step_write s reg _ rest hb hh, writeReg_number_of_block reg x _ hr]
  · intro r b hr2 hr9 hh
    obtain ⟨reg, rfl⟩ := Reg.exists_number r hr9
    rw [step_write s reg _ rest hb hh, writeReg_bytes_of_numeric reg b _ hr2]
  · intro r d hr hh
    obtain ⟨reg, rfl⟩ := Reg.exists_number r hr
    rw [step_write s reg _ rest hb hh, writeReg_data]
  · intro a d hu hh
    rw [step_store s a d rest hu hh]
    exact hostMemory_stops _ _ a d.length
  · intro a n hu hh
    rw [step_load s a n rest hu hh]
    exact hostMemory_stops _ _ a n

end Sys2Proof.Machine
end

section
/-! PROOFS. Buffer legality and the order of a command's errors and of the platform's refusal (20_memory.md R49, R59,
60_exceptions.md R186): what the three commands with operand ranges answer when a check fails. -/

namespace Sys2Proof.Machine

/-- Two ranges that are not empty share no address exactly when one ends at or before the start of the other. -/
theorem Region.share_none_iff (a b : Region) (ha : 0 < a.size) (hb : 0 < b.size) :
    (∀ x, ¬ (a.holds x = true ∧ b.holds x = true)) ↔ a.base + a.size ≤ b.base ∨ b.base + b.size ≤ a.base := by
  rw [← not_exists, ← Region.meets_iff, Region.meets, decide_eq_true_eq]
  omega

/-- Settles O17: for ranges that are not empty, to share no address is the third condition of R49. -/
theorem legalBuffersAreSameOrDisjoint : Obligations.LegalBuffersAreSameOrDisjoint := by
  intro s hlen
  rw [buffersLegal_iff, State.LegalBuffers, or_iff_right hlen.ne', Region.share_none_iff s.srcRange s.dstRange hlen hlen]
  rfl

/-- XFORM's check names an error when a schedule or legal buffers are missing. -/
theorem xformError_some (s : State) (h : s.schedV = false ∨ ¬ s.LegalBuffers) :
    ∃ e, s.xformError = some e ∧ e ≠ .ok := by
  rw [← buffersLegal_iff] at h
  unfold State.xformError
  split
  next hv =>
    rw [if_neg (h.resolve_left (by simp [hv]))]
    exact ⟨_, rfl, nofun⟩
  next => exact ⟨_, rfl, nofun⟩

theorem xformError_badBuffer (s : State) (hv : s.schedV = true) (hl : ¬ s.LegalBuffers) :
    s.xformError = some .badBuffer := by
  rw [← buffersLegal_iff] at hl
  rw [State.xformError, if_pos hv, if_neg hl]

/-- Key setup's check names an error when the key is not legal. -/
theorem keyError_some (s : State) (h : ¬ s.LegalKey) : ∃ e, s.keyError = some e ∧ e ≠ .ok := by
  by_cases hv : s.validKeyLen s.keyLen.toNat = true
  · exact ⟨_, keyError_range s hv (Nat.not_le.mp fun hr => h ⟨hv, hr⟩), nofun⟩
  · exact ⟨_, keyError_invalid s (Bool.eq_false_iff.mpr hv), nofun⟩

/-- XFORM answers the error its check names, whatever the platform admits. -/
theorem exec_xform_error (s : State) (e : ErrCode) (h : s.xformError = some e) : exec .xform s = .next (s.raise e) := by
  rw [exec_eq, admittedOr_next]
  simp [admittedFor, resultOf, State.xformResult, h]

/-- KSETUP answers the error its check names and gives the schedule up. -/
theorem exec_ksetup_error (s : State) (e : ErrCode) (h : s.keyError = some e) :
    exec .ksetup s = .next (s.dropSchedule.raise e) := by
  rw [exec_eq, admittedOr_next]
  simp [admittedFor, resultOf, State.ksetupResult, h]

/-- ENCRYPT answers an error of its key setup as KSETUP does. -/
theorem exec_encrypt_keyError (s : State) (e : ErrCode) (h : s.keyError = some e) :
    exec .encrypt s = .next (s.dropSchedule.raise e) := by
  rw [exec_eq, admittedOr_next]
  simp [admittedFor, resultOf, State.encryptResult, h]

/-- ENCRYPT with a good key answers BadBuffer for illegal buffers, after its `BC.SETUP` (R142, R168). -/
theorem exec_encrypt_badBuffer (s : State) (h : s.KsetupRuns) (hl : ¬ s.LegalBuffers) : exec .encrypt s =
    .next (({ s with port := s.port ++ [s.setupEvent] } : State).dropSchedule.raise .badBuffer) := by
  have hk := (keyError_none_iff s).mpr h.1
  have ha := (keyAdmitted_iff s).mpr h.2
  rw [exec_eq, admittedOr_next]
  simp [admittedFor, resultOf, State.encryptResult, hk, ha, bufferError_some s hl]

/-- Settles O16: the failing check of each command is answered as its error, and a command whose checks hold runs. -/
theorem bufferLegalityDecidesBadBuffer : Obligations.BufferLegalityDecidesBadBuffer := by
  intro s
  refine ⟨fun hv hl => ?_, fun h => ?_, fun hk hl => ?_, fun h => ?_⟩
  · exact exec_xform_error s _ (xformError_badBuffer s hv hl)
  · exact ⟨_, exec_xform_runs s h, rfl⟩
  · exact ⟨_, exec_encrypt_badBuffer s hk hl, rfl, rfl⟩
  · exact ⟨_, exec_encrypt_runs s h, rfl⟩

/-- The only refusal of a command is the platform's. -/
theorem exec_refused_iff (i : Instr) (s : State) (r : Refusal) :
    exec i s = .refused r ↔ admittedFor i s = false ∧ r = .notAdmitted := by
  rw [exec_eq, admittedOr_refused]

theorem admittedFor_xform_false_iff (s : State) :
    admittedFor .xform s = false ↔ s.schedV = true ∧ s.LegalBuffers ∧ ¬ s.AdmitsBuffers := by
  rw [← and_assoc, ← xformError_none_iff, ← buffersAdmitted_iff]
  simp [admittedFor, and_comm]

theorem admittedFor_ksetup_false_iff (s : State) :
    admittedFor .ksetup s = false ↔ s.LegalKey ∧ ¬ s.AdmitsKey := by
  rw [← keyError_none_iff, ← keyAdmitted_iff]
  simp [admittedFor, and_comm]

theorem admittedFor_encrypt_false_iff (s : State) :
    admittedFor .encrypt s = false ↔
      s.LegalKey ∧ (¬ s.AdmitsKey ∨ (s.LegalBuffers ∧ ¬ s.AdmitsBuffers)) := by
  rw [← keyError_none_iff, ← keyAdmitted_iff, ← bufferError_none_iff, ← buffersAdmitted_iff]
  simp [admittedFor, and_comm, or_iff_not_imp_left]

/-- Settles O18: a command is refused exactly when the platform's check fails, and an error that a check names is answered
before the platform is asked. -/
theorem unadmittedAddressIsRefused : Obligations.UnadmittedAddressIsRefused := by
  intro s
  simp only [exec_refused_iff, and_true]
  refine ⟨fun i f => exec_not_fault i s f, fun i r h => h.2, ?_, admittedFor_xform_false_iff s,
    admittedFor_ksetup_false_iff s, admittedFor_encrypt_false_iff s, fun h => ?_, fun h => ?_, fun hk hl => ?_⟩
  · rintro i (rfl | rfl | rfl) <;> exact ⟨_, rfl⟩
  · obtain ⟨e, he, hne⟩ := xformError_some s h
    exact ⟨_, exec_xform_error s e he, hne⟩
  · obtain ⟨e, he, hne⟩ := keyError_some s h
    exact ⟨⟨_, exec_ksetup_error s e he, hne⟩, _, exec_encrypt_keyError s e he, hne⟩
  · exact ⟨_, exec_encrypt_badBuffer s hk hl, rfl⟩

end Sys2Proof.Machine
end

section
/-! PROOFS. Which bytes of data memory a command changes (20_memory.md R57), and which of them can have changed when reset comes
during the command (R51, 70_reset_and_hazards.md R212): only a transform writes, and it generates before it writes. -/

namespace Sys2Proof.Machine

/-- The bytes the chunks write do not depend on the port's record. -/
theorem chunks_mem_withPort (enc : Schedule → Block → Block) (sched : Schedule) (src dst q : Nat) (x : Xfer)
    (port : List PortEvent) :
    (Xfer.chunks enc sched src dst q { x with port := port }).mem = (x.chunks enc sched src dst q).mem := by
  induction q with
  | zero => rfl
  | succ q ih => simp only [Xfer.chunks, Xfer.chunk, chunks_wc, chunks_idx, ih]

theorem body_mem_withPort (enc : Schedule → Block → Block) (sched : Schedule) (src dst len : Nat) (x : Xfer)
    (port : List PortEvent) :
    (Xfer.body enc sched src dst len { x with port := port }).mem = (x.body enc sched src dst len).mem := by
  unfold Xfer.body Xfer.tail
  split
  · exact chunks_mem_withPort enc sched src dst _ x port
  · simp only [chunks_wc, chunks_idx, chunks_mem_withPort]

/-- What `XFORM_BODY` leaves in memory does not depend on the port's record. -/
theorem xferEnd_mem_withPort (s : State) (sched : Schedule) (port : List PortEvent) :
    (State.xferEnd { s with port := port } sched).mem = (s.xferEnd sched).mem :=
  body_mem_withPort _ _ _ _ _ s.xferStart port

/-- `XFORM_BODY` of no byte leaves memory as it was. -/
theorem xferEnd_mem_of_len_zero (s : State) (sched : Schedule) (h : s.len.toNat = 0) :
    (s.xferEnd sched).mem = s.mem := by
  rw [State.xferEnd, h]
  rfl

/-- The command succeeds on legal buffers: it makes the port transactions `first`, then transforms with `sched`. -/
structure EndsInTransform (i : Instr) (s : State) (first : List PortEvent) (sched : Schedule) : Prop where
  legal : s.LegalBuffers
  err   : (resultOf i s).err = .ok
  mem   : (resultOf i s).mem = (s.xferEnd sched).mem
  port  : (resultOf i s).port = s.port ++ (first ++ encEvents sched s.ctr s.len.toNat)

/-- A command leaves memory alone, or is an XFORM or an ENCRYPT that transforms. -/
theorem resultOf_mem_cases (i : Instr) (s : State) :
    (resultOf i s).mem = s.mem ∨
    (i = .xform ∧ EndsInTransform i s [] s.sched) ∨
    (i = .encrypt ∧ EndsInTransform i s [s.setupEvent] s.derivedSchedule) := by
  cases i with
  | inc | add => exact .inl rfl
  | gen => cases hv : s.schedV <;> exact .inl (by simp [resultOf, hv])
  | xform =>
    obtain ⟨-, h⟩ | ⟨-, -, h⟩ | ⟨-, hl, h⟩ := xformResult_cases s
    · exact .inl (by simp [resultOf, h])
    · exact .inl (by simp [resultOf, h])
    · refine .inr (.inl ⟨rfl, hl, ?_, ?_, ?_⟩) <;> simp [resultOf, h, xferEnd_port]
  | ksetup =>
    obtain ⟨-, h⟩ | ⟨-, -, h⟩ | ⟨-, h⟩ := ksetupResult_cases s <;> exact .inl (by simp [resultOf, h])
  | encrypt =>
    obtain ⟨-, h⟩ | ⟨-, -, h⟩ | ⟨-, -, h⟩ | ⟨-, hl, h⟩ := encryptResult_cases s
    · exact .inl (by simp [resultOf, h])
    · exact .inl (by simp [resultOf, h])
    · exact .inl (by simp [resultOf, h])
    · refine .inr (.inr ⟨rfl, hl, ?_, ?_, ?_⟩) <;> simp [resultOf, h, xferEnd_port, xferEnd_mem_withPort]

/-- A transform changes no byte outside the destination range. -/
theorem EndsInTransform.read_outside {i : Instr} {s : State} {first : List PortEvent} {sched : Schedule}
    (h : EndsInTransform i s first sched) (a : Nat) (ha : ¬ (s.dst.toNat ≤ a ∧ a < s.dst.toNat + s.len.toNat)) :
    (resultOf i s).mem.read a = s.mem.read a := by
  rw [h.mem, xferEnd_read s sched h.legal, if_neg ha]

/-- A transform of no byte leaves memory as it was. -/
theorem EndsInTransform.mem_of_len_zero {i : Instr} {s : State} {first : List PortEvent} {sched : Schedule}
    (h : EndsInTransform i s first sched) (h0 : s.len.toNat = 0) : (resultOf i s).mem = s.mem :=
  h.mem.trans (xferEnd_mem_of_len_zero s sched h0)

/-- Settles O34: only a transform writes memory, it is XFORM's or ENCRYPT's, it succeeds, and it writes its destination. -/
theorem memoryChangesOnlyInDestination : Obligations.MemoryChangesOnlyInDestination := by
  intro i s t h
  obtain rfl := exec_next i s t h
  have transforms {first sched} (ht : EndsInTransform i s first sched) :
      (s.len.toNat = 0 ∨ (resultOf i s).err ≠ .ok → (resultOf i s).mem = s.mem) ∧
      ∀ a, ¬ (s.dst.toNat ≤ a ∧ a < s.dst.toNat + s.len.toNat) → (resultOf i s).mem.read a = s.mem.read a :=
    ⟨fun hor => ht.mem_of_len_zero (hor.resolve_right (not_not.mpr ht.err)), ht.read_outside⟩
  obtain hm | ⟨hi, ht⟩ | ⟨hi, ht⟩ := resultOf_mem_cases i s
  · exact ⟨fun _ _ => hm, fun _ => hm, fun _ _ => by rw [hm]⟩
  · exact ⟨fun hx _ => absurd hi hx, transforms ht⟩
  · exact ⟨fun _ he => absurd hi he, transforms ht⟩

/-- The `BC.ENC` of byte `p` is among the first `k` transactions when those before it are fewer than `k`. -/
theorem enc_mem_take (first : List PortEvent) (sched : Schedule) (c : Block) (len k p : Nat) (hp : p < len)
    (hk : first.length + p / 16 < k) :
    .enc sched (incTimes (p / 16) c) ∈ (first ++ encEvents sched c len).take k := by
  have hlen : (encEvents sched c len).length = (len + 15) / 16 := by simp [encEvents]
  rw [List.mem_take_iff_getElem]
  exact ⟨first.length + p / 16, by rw [List.length_append, hlen]; omega, by simp [encEvents]⟩

/-- A byte of the destination range that an abandoned command has changed had landed, and the command run to its end changes
memory. -/
theorem landedMemory_changed (s : State) (final : Memory) (p : Nat)
    (h : (landedMemory s final).read (s.dst.toNat + p) ≠ s.mem.read (s.dst.toNat + p)) :
    s.landed p = true ∧ final ≠ s.mem := by
  obtain hl | ⟨-, hl⟩ := landedMemory_cases s final <;> rw [hl] at h
  · exact absurd rfl h
  · rw [landBytes_read, Nat.add_sub_cancel_left] at h
    split at h
    next hp => exact ⟨hp.2.2, fun hf => h (by rw [hf])⟩
    · exact absurd rfl h

/-- A byte that has landed has its transactions among those made (R51 b and d). -/
theorem landed_made (s : State) (p : Nat) (h : s.landed p = true) : s.setupsFirst + p / 16 < s.transactionsMade :=
  of_decide_eq_true (Bool.and_eq_true_iff.mp h).1

/-- A reset during a command that would have answered (R212). -/
theorem abandon_of_next (s u : State) (h : runCommand s = .next u) :
    abandon s = .next ({ s with mem := landedMemory s u.mem, port := landedPort s u.port } : State).assertReset := by
  simp only [abandon, h]

/-- The CORE's turn leaves memory alone, or the command in flight is an XFORM or an ENCRYPT that transforms. -/
theorem runCommand_mem_cases (s u : State) (h : runCommand s = .next u) :
    u.mem = s.mem ∨
    (decode s.cmd = .command .xform ∧ u.port = s.port ++ encEvents s.sched s.ctr s.len.toNat) ∨
    (decode s.cmd = .command .encrypt ∧
      u.port = s.port ++ ([s.setupEvent] ++ encEvents s.derivedSchedule s.ctr s.len.toNat)) := by
  obtain ⟨i, hd, hi⟩ | ⟨-, -, rfl⟩ := runCommand_next s u h
  · obtain rfl := exec_next i s u hi
    obtain hm | ⟨rfl, ht⟩ | ⟨rfl, ht⟩ := resultOf_mem_cases i s
    · exact .inl hm
    · exact .inr (.inl ⟨hd, ht.port⟩)
    · exact .inr (.inr ⟨hd, ht.port⟩)
  · exact .inl rfl

/-- Each byte that an abandoned command has changed has its `BC.ENC`, and in ENCRYPT the `BC.SETUP`, among the transactions made
(R51 b and d). -/
theorem landedMemory_changed_made (s u : State) (h : runCommand s = .next u) (p : Nat) (hp : p < s.len.toNat)
    (hne : (landedMemory s u.mem).read (s.dst.toNat + p) ≠ s.mem.read (s.dst.toNat + p)) :
    (decode s.cmd = .command .xform ∧
      .enc s.sched (incTimes (p / 16) s.ctr) ∈ (u.port.drop s.port.length).take s.transactionsMade) ∨
    (decode s.cmd = .command .encrypt ∧ s.setupEvent ∈ (u.port.drop s.port.length).take s.transactionsMade ∧
      .enc s.derivedSchedule (incTimes (p / 16) s.ctr) ∈ (u.port.drop s.port.length).take s.transactionsMade) := by
  obtain ⟨hlanded, hmem⟩ := landedMemory_changed s u.mem p hne
  have hmade := landed_made s p hlanded
  obtain hsame | ⟨hd, hport⟩ | ⟨hd, hport⟩ := runCommand_mem_cases s u h
  · exact absurd hsame hmem
  · have hfirst : s.setupsFirst = 0 := by simp [State.setupsFirst, hd]
    rw [hport, List.drop_left]
    exact .inl ⟨hd, enc_mem_take [] s.sched s.ctr _ _ p hp (by simpa [hfirst] using hmade)⟩
  · have hfirst : s.setupsFirst = 1 := by simp [State.setupsFirst, hd]
    obtain ⟨k, hk⟩ : ∃ k, s.transactionsMade = k + 1 := Nat.exists_eq_succ_of_ne_zero (by omega)
    rw [hport, List.drop_left]
    exact .inr ⟨hd, by simp [hk], enc_mem_take [s.setupEvent] _ s.ctr _ _ p hp (by simpa [hfirst] using hmade)⟩

/-- Settles O55: the reset abandons the command, whose transactions made are the first few of those of the whole command. -/
theorem landedBytesHaveTheirTransactions : Obligations.LandedBytesHaveTheirTransactions := by
  intro s u rest hb hh hu
  refine ⟨_, _, (step_busy s _ rest hb hh).trans (abandon_of_next _ u hu), rfl, List.take_prefix _ _, fun p hp hne => ?_⟩
  exact landedMemory_changed_made _ u hu p hp hne

end Sys2Proof.Machine
end

section
/-! PROOFS. The host's store followed by its load (20_memory.md R47, 30_encoding.md R69). -/

namespace Sys2Proof.Machine

/-- The bytes stored at a place are the bytes read there. -/
theorem Memory.readBytes_writeBytes (m : Memory) (a : Nat) (d : List Byte) :
    (m.writeBytes a d).readBytes a d.length = d := by
  refine List.ext_getElem (Memory.length_readBytes _ _ _) fun k _ hk => ?_
  simp [Memory.readBytes, Memory.read_writeBytes, hk]

/-- The host's access to admitted addresses inside memory goes through. -/
theorem hostMemory_answers (s t : State) (a n : Nat) (h : a + n ≤ 2 ^ Config.aw) (ha : s.AdmitsRange a n) :
    hostMemory s ⟨a, n⟩ t = .next t :=
  (if_pos h).trans ((admittedOr_next _ _ _).mpr ⟨(admits_iff s a n).mpr ha, rfl⟩)

/-- A store away from the ranges in use, to admitted addresses inside memory, writes its bytes. -/
theorem step_store_answers (s : State) (a : Nat) (d : List Byte) (rest : List HostMove)
    (hu : s.busy = true → Untouched (s.rangesRead ++ s.rangesWritten) a d.length) (hh : s.host = .store a d :: rest)
    (h : a + d.length ≤ 2 ^ Config.aw) (ha : s.AdmitsRange a d.length) :
    step s = .next { s with mem := s.mem.writeBytes a d, host := rest } :=
  (step_store s a d rest hu hh).trans (hostMemory_answers _ _ a d.length h ha)

/-- A load away from the ranges being written, of admitted addresses inside memory, returns the bytes. -/
theorem step_load_answers (s : State) (a n : Nat) (rest : List HostMove)
    (hu : s.busy = true → Untouched s.rangesWritten a n) (hh : s.host = .load a n :: rest)
    (h : a + n ≤ 2 ^ Config.aw) (ha : s.AdmitsRange a n) :
    step s = .next (State.answer { s with host := rest } (.data (s.mem.readBytes a n))) :=
  (step_load s a n rest hu hh).trans (hostMemory_answers _ _ a n h ha)

/-- Settles O46: both accesses go through, and the load reads what the store has written. -/
theorem hostLoadReturnsWhatWasStored : Obligations.HostLoadReturnsWhatWasStored := by
  intro s a d rest hb hh hd ha
  have hidle : s.busy ≠ true := Bool.eq_false_iff.mp hb
  refine ⟨_, _, step_store_answers s a d _ (absurd · hidle) hh hd ha,
    step_load_answers _ a d.length rest (absurd · hidle) rfl hd ha, ?_, rfl,
    fun x hx => (Memory.read_writeBytes d s.mem a x).trans (if_neg hx), rfl⟩
  rw [State.answer_reads, Memory.readBytes_writeBytes]

end Sys2Proof.Machine
end

section
/-! PROOFS. The command word (30_encoding.md R61 to R66): a word is its two fields, and the words that decode are the six encodings.
The key fact is `decode_command_iff`: to decode to a command is to have that command's fields. -/

namespace Sys2Proof

/-- `op` is the low byte of the word (R61). -/
theorem fieldsOf_op_toNat (w : CmdWord) : (fieldsOf w).op.toNat = w.toNat % 256 := by
  simp [fieldsOf, BitVec.extractLsb'_toNat]

/-- `rsv` is the rest of the word (R61). -/
theorem fieldsOf_rsv_toNat (w : CmdWord) : (fieldsOf w).rsv.toNat = w.toNat / 256 := by
  have hw := w.isLt
  simp only [fieldsOf, BitVec.extractLsb'_toNat, Nat.shiftRight_eq_div_pow]
  omega

/-- No bit of the word is dropped (R61). -/
theorem fieldsOf_append (w : CmdWord) : (fieldsOf w).rsv ++ (fieldsOf w).op = w := by
  refine BitVec.eq_of_toNat_eq ?_
  rw [BitVec.toNat_append, ← Nat.shiftLeft_add_eq_or_of_lt (fieldsOf w).op.isLt, Nat.shiftLeft_eq, fieldsOf_op_toNat,
    fieldsOf_rsv_toNat]
  omega

/-- Settles O2: the two fields are remainder and quotient by 256. -/
theorem fieldsAreTheWordsBits : Obligations.FieldsAreTheWordsBits :=
  fun w => ⟨fieldsOf_op_toNat w, fieldsOf_rsv_toNat w, fieldsOf_append w⟩

/-- What `Laws.Encoding` says of each of the six commands, for whichever command. -/
theorem encoding_statement (i : Instr) : Laws.Encoding.Statement i := by
  cases i
  · exact Laws.Encoding.inc
  · exact Laws.Encoding.add
  · exact Laws.Encoding.gen
  · exact Laws.Encoding.xform
  · exact Laws.Encoding.ksetup
  · exact Laws.Encoding.encrypt

/-- A word is a command's word exactly when its fields are the command's. -/
theorem fieldsOf_eq_fields_iff (w : CmdWord) (i : Instr) : fieldsOf w = i.fields ↔ w = encode i := by
  constructor
  · intro h
    rw [← fieldsOf_append w, h, encode]
  · rintro rfl
    obtain ⟨-, hfields, -⟩ := encoding_statement i
    exact hfields

theorem CmdFields.eq_fields_iff (f : CmdFields) (i : Instr) : f = i.fields ↔ f.rsv = 0#24 ∧ f.op = i.opcode := by
  obtain ⟨op, rsv⟩ := f
  simp [Instr.fields, and_comm]

/-- The opcode map gives a command for that command's opcode alone (R63). -/
theorem commandOf_command_iff (op : BitVec 8) (i : Instr) : commandOf op = .command i ↔ op = i.opcode := by
  constructor
  · intro h
    unfold commandOf at h
    split at h <;> cases h <;> exact BitVec.eq_of_toNat_eq ‹_›
  · rintro rfl
    cases i <;> rfl

/-- A word decodes to a command exactly when its fields are the command's. -/
theorem decode_command_iff (w : CmdWord) (i : Instr) : decode w = .command i ↔ fieldsOf w = i.fields := by
  rw [CmdFields.eq_fields_iff, ← commandOf_command_iff]
  by_cases hrsv : (fieldsOf w).rsv = 0#24 <;> simp [decode, hrsv]

/-- The assigned opcodes are 1 to 6 (R63, R64). -/
theorem exists_opcode_iff (op : BitVec 8) : (∃ i : Instr, op = i.opcode) ↔ 1 ≤ op.toNat ∧ op.toNat ≤ 6 := by
  constructor
  · rintro ⟨i, rfl⟩
    cases i <;> decide
  · rintro ⟨hlow, hhigh⟩
    interval_cases hop : op.toNat
    · exact ⟨.inc, BitVec.eq_of_toNat_eq hop⟩
    · exact ⟨.add, BitVec.eq_of_toNat_eq hop⟩
    · exact ⟨.gen, BitVec.eq_of_toNat_eq hop⟩
    · exact ⟨.xform, BitVec.eq_of_toNat_eq hop⟩
    · exact ⟨.ksetup, BitVec.eq_of_toNat_eq hop⟩
    · exact ⟨.encrypt, BitVec.eq_of_toNat_eq hop⟩

/-- The words that decode are those whose fields are well formed. -/
theorem exists_decode_iff_wf (w : CmdWord) : (∃ i, decode w = .command i) ↔ (fieldsOf w).wf = true := by
  simp only [decode_command_iff, CmdFields.eq_fields_iff, exists_and_left, exists_opcode_iff, CmdFields.wf,
    CmdFields.reservedZero, CmdFields.opcodeAssigned, Bool.and_eq_true, beq_iff_eq, decide_eq_true_eq]

/-- The well-formed fields are those of the words 1 to 6. -/
theorem fieldsOf_wf_iff (w : CmdWord) : (fieldsOf w).wf = true ↔ 1 ≤ w.toNat ∧ w.toNat ≤ 6 := by
  simp only [CmdFields.wf, CmdFields.reservedZero, CmdFields.opcodeAssigned, Bool.and_eq_true, beq_iff_eq,
    decide_eq_true_eq, ← BitVec.toNat_inj, fieldsOf_rsv_toNat, fieldsOf_op_toNat, BitVec.toNat_ofNat]
  omega

/-- A word that decodes to no command is illegal. -/
theorem decode_illegal_of_not_command (w : CmdWord) (h : ¬ ∃ i, decode w = .command i) :
    ∃ why, decode w = .illegal why := by
  cases hd : decode w with
  | command i => exact absurd ⟨i, hd⟩ h
  | illegal why => exact ⟨why, rfl⟩

/-- Settles O3: a command's fields determine its word, and the well-formed fields are the six commands'. -/
theorem everyWordIsOneOfSixOrIllegal : Obligations.EveryWordIsOneOfSixOrIllegal := by
  refine ⟨fun i => ?_, fun w => ⟨fun i => ?_, ?_, exists_decode_iff_wf w, decode_illegal_of_not_command w⟩⟩
  · obtain ⟨hwf, -, -, hdecode, -⟩ := encoding_statement i
    exact ⟨hwf, hdecode⟩
  · rw [decode_command_iff, fieldsOf_eq_fields_iff]
  · rw [exists_decode_iff_wf, fieldsOf_wf_iff]

/-- Settles O1: each word of the table is evaluated. -/
theorem sixWordsEncodeAndDecode : Obligations.SixWordsEncodeAndDecode := by
  unfold Obligations.SixWordsEncodeAndDecode
  decide

/-- Reserved bits and reserved opcodes make a word illegal (R64, R65). -/
theorem decode_illegal_of_reserved (w : CmdWord)
    (h : (fieldsOf w).rsv ≠ 0 ∨ (fieldsOf w).op = 0 ∨ 7 ≤ (fieldsOf w).op.toNat) : ∃ why, decode w = .illegal why := by
  refine decode_illegal_of_not_command w ?_
  rintro ⟨i, hi⟩
  obtain ⟨hrsv, hop⟩ := (CmdFields.eq_fields_iff _ i).mp ((decode_command_iff w i).mp hi)
  obtain ⟨hlow, hhigh⟩ := (exists_opcode_iff _).mp ⟨i, hop⟩
  obtain h | h | h := h
  · exact h hrsv
  · simp [h] at hlow
  · omega

end Sys2Proof
end

section
/-! PROOFS. Issue and the CORE's turn (30_encoding.md R64, R65, R68): a CMD write issues, and a step at the CORE's turn runs the
latched word. -/

namespace Sys2Proof.Machine

/-- With the CORE to move, a step is the CORE's turn, and a `wait` of the host is used up. -/
theorem step_coreTurn (s : State) (h : s.coreTurn = true) : step s = runCommand s.afterWait := by
  obtain ⟨hb, hturn⟩ := Bool.and_eq_true_iff.mp h
  cases hh : s.host with
  | nil =>
    have hsame : s.afterWait = s := by rw [State.afterWait, hh, List.tail_nil, ← hh]
    simp [step, nextMove, hh, hb, hsame]
  | cons m rest =>
    obtain rfl : m = .wait := by simpa [hh] using hturn
    rw [step_busy s _ rest hb hh, State.afterWait, hh]
    rfl

/-- With a command in flight, it is the CORE's turn when the host has no move left or waits. -/
theorem coreTurn_of_busy (s : State) (hb : s.busy = true) (hh : s.host = [] ∨ ∃ rest, s.host = .wait :: rest) :
    s.coreTurn = true := by
  obtain hh | ⟨rest, hh⟩ := hh <;> simp [State.coreTurn, hb, hh]

/-- The CORE's turn on a legal word is the command (R68). -/
theorem runCommand_command (s : State) (i : Instr) (h : decode s.cmd = .command i) : runCommand s = exec i s := by
  rw [runCommand, h]

/-- The CORE's turn on any other word raises IllegalCommand (R182). -/
theorem runCommand_illegal (s : State) (why : DecodeError) (h : decode s.cmd = .illegal why) :
    runCommand s = .next (s.raise .illegalCommand) := by
  rw [runCommand, h]

/-- Settles O4: the word is illegal, so the CORE's turn raises IllegalCommand. -/
theorem illegalWordChangesOnlyStatus : Obligations.IllegalWordChangesOnlyStatus := by
  intro s hturn hreserved
  obtain ⟨why, hd⟩ := decode_illegal_of_reserved s.cmd hreserved
  exact (step_coreTurn s hturn).trans (runCommand_illegal s.afterWait why hd)

/-- Settles O49: it is the CORE's turn, and the latched word is legal. -/
theorem stepRunsDecodedCommand : Obligations.StepRunsDecodedCommand := by
  intro s i hb hh hd
  exact (step_coreTurn s (coreTurn_of_busy s hb hh)).trans (runCommand_command s.afterWait i hd)

/-- A number of 32 bits that the table decoder reads as a command is that command's word. -/
theorem decode_of_decodeTableWord (w : Nat) (i : Instr) (h : decodeTableWord 32 w = some i) (hw : w < 2 ^ 32) :
    decode (BitVec.ofNat 32 w) = .command i := by
  rw [decodeTableWord, Nat.mod_eq_of_lt hw, if_pos hw] at h
  split at h
  next j hj => rw [hj, Option.some.inj h]
  next => cases h

/-- Settles O50: the issued state has the CORE to move, and its latch holds the word. -/
theorem fetchWordRunsNext : Obligations.FetchWordRunsNext := by
  intro s w i hi hw
  have hd := decode_of_decodeTableWord w i hi hw
  rw [State.withFetchWord, Nat.mod_eq_of_lt hw, step_coreTurn _ rfl]
  exact runCommand_command _ i hd

/-- Settles O47: CMD takes every 32-bit word, and a write to it issues. -/
theorem cmdWriteIssuesCommand : Obligations.CmdWriteIssuesCommand := by
  intro s w rest hb hh
  rw [step_write s .cmd _ rest hb hh, writeReg, takeNumber_toNat]
  rfl

/-- The CORE's turn ends idle (R20, R68). -/
theorem runCommand_busy (s t : State) (h : runCommand s = .next t) : t.busy = false := by
  obtain ⟨i, -, hi⟩ | ⟨-, -, rfl⟩ := runCommand_next s t h
  · rw [exec_next i s t hi]
    exact resultOf_busy i s
  · rfl

/-- Bytes stored away from some ranges leave every byte of those ranges as it was. -/
theorem read_writeBytes_of_untouched (m : Memory) (a : Nat) (d : List Byte) (ranges : List Region)
    (hu : Untouched ranges a d.length) (u : Region) (hmem : u ∈ ranges) (x : Nat) (hx : u.holds x = true) :
    (m.writeBytes a d).read x = m.read x := by
  rw [Memory.read_writeBytes, if_neg]
  rintro ⟨hlow, hhigh⟩
  rw [hu u hmem x hlow hhigh] at hx
  cases hx

/-- Settles O48: the CORE's turn and a reset end idle, so the step is an access of the host, which keeps the registers and stores
only away from the command's ranges (R24 rule 2, R215). -/
theorem commandInFlightKeepsItsOperands : Obligations.CommandInFlightKeepsItsOperands := by
  intro s t hb h ht
  obtain ⟨-, hidle, -⟩ | ⟨-, hr⟩ | ⟨-, -, -, hidle, -⟩ | ⟨m, rest, -, hw, -, hm⟩ := step_next s t h
  · simp [hb] at hidle
  · simp [runCommand_busy _ t hr] at ht
  · simp [hb] at hidle
  obtain ⟨-, ha⟩ | ⟨mem, reads, draws, rfl, hmem⟩ := hostMoveBusy_cases m _ t hw hm
  · obtain ⟨u, -, rfl⟩ := abandon_next _ t ha
    cases ht
  · refine ⟨rfl, ⟨rfl, rfl, rfl, rfl, rfl, rfl⟩, rfl, rfl, rfl, rfl, rfl, rfl, fun u hu x hx => ?_⟩
    obtain rfl | ⟨a, d, -, haway, rfl⟩ := hmem
    · rfl
    · exact read_writeBytes_of_untouched s.mem a d _ haway u hu x hx

end Sys2Proof.Machine
end

section
/-! PROOFS. What each command can end with and which registers it leaves alone (30_encoding.md R71, 42_transform.md R111,
41_keystream.md R102, 60_exceptions.md R180). -/

namespace Sys2Proof.Machine

/-- Settles O31: `ERR` in each way each command can end. -/
theorem eachCommandRaisesOnlyItsErrors : Obligations.EachCommandRaisesOnlyItsErrors := by
  intro i s t h
  rw [exec_next i s t h]
  cases i with
  | inc | add => simp [resultOf]
  | gen => cases hv : s.schedV <;> simp [resultOf, hv]
  | xform => obtain ⟨-, h⟩ | ⟨-, -, h⟩ | ⟨-, -, h⟩ := xformResult_cases s <;> simp [resultOf, h]
  | ksetup => obtain ⟨-, h⟩ | ⟨-, -, h⟩ | ⟨-, h⟩ := ksetupResult_cases s <;> simp [resultOf, h]
  | encrypt =>
    obtain ⟨-, h⟩ | ⟨-, -, h⟩ | ⟨-, -, h⟩ | ⟨-, -, h⟩ := encryptResult_cases s <;> simp [resultOf, h]

/-- No command writes an operand register (R71). -/
theorem resultOf_sameOperands (i : Instr) (s : State) : s.SameOperands (resultOf i s) := by
  cases i with
  | inc | add => simp [resultOf, State.SameOperands]
  | gen => cases hv : s.schedV <;> simp [resultOf, State.SameOperands, hv]
  | xform =>
    obtain ⟨-, h⟩ | ⟨-, -, h⟩ | ⟨-, -, h⟩ := xformResult_cases s <;> simp [resultOf, h, State.SameOperands]
  | ksetup =>
    obtain ⟨-, h⟩ | ⟨-, -, h⟩ | ⟨-, h⟩ := ksetupResult_cases s <;> simp [resultOf, h, State.SameOperands]
  | encrypt =>
    obtain ⟨-, h⟩ | ⟨-, -, h⟩ | ⟨-, -, h⟩ | ⟨-, -, h⟩ := encryptResult_cases s <;>
      simp [resultOf, h, State.SameOperands]

/-- Only INC and ADD write CTR (R102, R111). -/
theorem resultOf_keepsCtr (i : Instr) (s : State) (hinc : i ≠ .inc) (hadd : i ≠ .add) :
    (resultOf i s).ctr = s.ctr := by
  cases i with
  | inc => exact absurd rfl hinc
  | add => exact absurd rfl hadd
  | gen => cases hv : s.schedV <;> simp [resultOf, hv]
  | xform => obtain ⟨-, h⟩ | ⟨-, -, h⟩ | ⟨-, -, h⟩ := xformResult_cases s <;> simp [resultOf, h]
  | ksetup => obtain ⟨-, h⟩ | ⟨-, -, h⟩ | ⟨-, h⟩ := ksetupResult_cases s <;> simp [resultOf, h]
  | encrypt =>
    obtain ⟨-, h⟩ | ⟨-, -, h⟩ | ⟨-, -, h⟩ | ⟨-, -, h⟩ := encryptResult_cases s <;> simp [resultOf, h]

/-- A command that transforms nothing keeps WC and I, and keeps KS unless it is GEN. -/
theorem resultOf_keepsWorking (i : Instr) (s : State) (hx : i ≠ .xform) (he : i ≠ .encrypt) :
    (i ≠ .gen → (resultOf i s).ks = s.ks) ∧ (resultOf i s).wc = s.wc ∧ (resultOf i s).idx = s.idx := by
  cases i with
  | inc | add => simp [resultOf]
  | gen => cases hv : s.schedV <;> simp [resultOf, hv]
  | ksetup => obtain ⟨-, h⟩ | ⟨-, -, h⟩ | ⟨-, h⟩ := ksetupResult_cases s <;> simp [resultOf, h]
  | xform => exact absurd rfl hx
  | encrypt => exact absurd rfl he

/-- Settles O33: one lemma for each group of registers. -/
theorem commandsWriteOnlyTheirRegisters : Obligations.CommandsWriteOnlyTheirRegisters := by
  intro i s t h
  rw [exec_next i s t h]
  refine ⟨resultOf_sameOperands i s, resultOf_sameSurroundings i s, resultOf_keepsCtr i s, fun hg hx he => ?_,
    fun hk he => (resultOf_keepsSchedule i s hk he).symm, fun hx he => (resultOf_keepsWorking i s hx he).2⟩
  exact (resultOf_keepsWorking i s hx he).1 hg

end Sys2Proof.Machine
end

section
/-! PROOFS. ENCRYPT as KSETUP, then XFORM, then the schedule discarded (30_encoding.md R70, 43_wrapper.md R142). -/

namespace Sys2Proof.Machine

/-- A KSETUP that answers raises the error of its key check or does its work. -/
theorem exec_ksetup_cases (s k : State) (h : exec .ksetup s = .next k) :
    (∃ e, s.keyError = some e ∧ e ≠ .ok ∧ k = s.dropSchedule.raise e) ∨
    (s.KsetupRuns ∧ k =
      ({ s with sched := s.derivedSchedule, schedV := true, port := s.port ++ [s.setupEvent] } : State).complete) := by
  by_cases hl : s.LegalKey
  · have ha : s.AdmitsKey := by
      by_contra ha
      rw [(exec_refused_iff .ksetup s _).mpr ⟨(admittedFor_ksetup_false_iff s).mpr ⟨hl, ha⟩, rfl⟩] at h
      cases h
    rw [exec_ksetup_runs s ⟨hl, ha⟩] at h
    injection h with h
    exact .inr ⟨⟨hl, ha⟩, h.symm⟩
  · obtain ⟨e, he, hne⟩ := keyError_some s hl
    rw [exec_ksetup_error s e he] at h
    injection h with h
    exact .inl ⟨e, he, hne, h.symm⟩

/-- An XFORM that answers with a schedule held raises BadBuffer or does its work. -/
theorem exec_xform_cases (s x : State) (hv : s.schedV = true) (h : exec .xform s = .next x) :
    (¬ s.LegalBuffers ∧ x = s.raise .badBuffer) ∨ (s.XformRuns ∧ x = (s.transformed s.sched).complete) := by
  by_cases hl : s.LegalBuffers
  · have ha : s.AdmitsBuffers := by
      by_contra ha
      rw [(exec_refused_iff .xform s _).mpr ⟨(admittedFor_xform_false_iff s).mpr ⟨hv, hl, ha⟩, rfl⟩] at h
      cases h
    rw [exec_xform_runs s ⟨hv, hl, ha⟩] at h
    injection h with h
    exact .inr ⟨⟨hv, hl, ha⟩, h.symm⟩
  · rw [exec_xform_error s _ (xformError_badBuffer s hv hl)] at h
    injection h with h
    exact .inl ⟨hl, h.symm⟩

/-- Settles O26: ENCRYPT raises the error of its key setup as KSETUP does, and after the key setup it answers as XFORM does on the
state KSETUP leaves, whose operands, buffers and memory are those at issue. -/
theorem encryptIsKsetupXformDiscard : Obligations.EncryptIsKsetupXformDiscard := by
  intro s k hk
  obtain ⟨e, he, hne, rfl⟩ | ⟨hruns, rfl⟩ := exec_ksetup_cases s k hk
  · exact ⟨fun _ => ⟨_, _, exec_encrypt_keyError s e he⟩, fun hok => absurd hok hne⟩
  · refine ⟨fun hne => absurd rfl hne, fun _ x hx => ?_⟩
    obtain ⟨hl, rfl⟩ | ⟨⟨-, hl, ha⟩, rfl⟩ := exec_xform_cases _ x rfl hx
    · exact ⟨_, _, exec_encrypt_badBuffer s hruns hl⟩
    · exact ⟨_, _, exec_encrypt_runs s ⟨hruns.1, hruns.2, hl, ha⟩⟩

end Sys2Proof.Machine
end

section
/-! PROOFS. The counter as bytes, as two words and as a number (40_counter.md R80 to R85). -/

namespace Sys2Proof.Machine

/-- The place values of a big-endian number. -/
theorem beNum_eq_sum (f : Nat → Byte) (n : Nat) : beNum f n = ∑ k : Fin n, (f k).toNat * 256 ^ (n - 1 - k.val) := by
  induction n with
  | zero => rfl
  | succ n ih =>
    rw [beNum, ih, Fin.sum_univ_castSucc, Finset.sum_mul]
    congr 1
    · refine Finset.sum_congr rfl fun k _ => ?_
      have hplace : n + 1 - 1 - k.val = n - 1 - k.val + 1 := by omega
      rw [Fin.val_castSucc, hplace, Nat.pow_succ, Nat.mul_assoc]
    · simp

/-- A counter's value is made of its two words (R80). -/
theorem val128_eq_words (c : Block) : val128 c = be64 (highBytes c) * 2 ^ 64 + be64 (lowBytes c) := by
  rw [be64_highBytes, be64_lowBytes, val128, beNum_add (byteAt c) 8 8]
  norm_num

/-- Settles O5: place values of the 16 bytes and of each word's 8 bytes, and the 16 bytes split after the eighth. -/
theorem counterValueIsBigEndian : Obligations.CounterValueIsBigEndian := by
  intro c
  refine ⟨beNum_eq_sum (byteAt c) 16, ?_, ?_, val128_eq_words c⟩
  · rw [be64_highBytes, beNum_eq_sum]
  · rw [be64_lowBytes, beNum_eq_sum]

/-! ### Bytes of 0xff -/

theorem byte_add_one_eq_zero_iff_ff (b : Byte) : b + 1#8 = 0#8 ↔ b = 0xff#8 := by
  rw [byte_add_one_eq_zero, ← BitVec.toNat_inj]
  rfl

/-- Bytes of 0xff make the largest number. -/
theorem beNum_of_ff (f : Nat → Byte) (n : Nat) (h : ∀ k < n, f k = 0xff#8) : beNum f n + 1 = 256 ^ n := by
  induction n with
  | zero => rfl
  | succ n ih =>
    have hlow := ih fun k hk => h k (by omega)
    have hlast : (f n).toNat = 255 := by rw [h n (by omega)]; rfl
    rw [beNum, hlast, Nat.pow_succ, ← hlow]
    ring

theorem val128_of_ff (c : Block) (h : ∀ j < 16, byteAt c j = 0xff#8) : val128 c = 2 ^ 128 - 1 :=
  Nat.eq_sub_of_add_eq (beNum_of_ff (byteAt c) 16 h)

theorem be64_lowBytes_of_ff (c : Block) (h : ∀ j, 8 ≤ j → j < 16 → byteAt c j = 0xff#8) :
    be64 (lowBytes c) = 2 ^ 64 - 1 := by
  rw [be64_lowBytes]
  exact Nat.eq_sub_of_add_eq (beNum_of_ff _ 8 fun k hk => h (8 + k) (by omega) (by omega))

/-! ### The increment -/

/-- A byte that is not 0xff stops the carry. -/
theorem incFrom_stop (k : Nat) (c : Block) (h : byteAt c k ≠ 0xff#8) :
    incFrom (k + 1) c = c.setIfInBounds k (byteAt c k + 1#8) :=
  if_neg (mt (byte_add_one_eq_zero_iff_ff _).mp h)

/-- A byte of 0xff becomes 0 and passes the carry on. -/
theorem incFrom_carry (k : Nat) (c : Block) (h : byteAt c k = 0xff#8) :
    incFrom (k + 1) c = incFrom k (c.setIfInBounds k 0#8) := by
  have hz := (byte_add_one_eq_zero_iff_ff _).mpr h
  rw [incFrom, hz]
  exact if_pos rfl

/-- The bytes the loop leaves when the carry stops at byte `k` (R81). -/
theorem byteAt_incFrom (k m : Nat) :
    ∀ c : Block, m ≤ 16 → k < m → byteAt c k ≠ 0xff#8 → (∀ j, k < j → j < m → byteAt c j = 0xff#8) →
      ∀ j < m, byteAt (incFrom m c) j = if j < k then byteAt c j else if j = k then byteAt c k + 1#8 else 0#8 := by
  induction m with
  | zero => exact fun _ _ hk => absurd hk (Nat.not_lt_zero k)
  | succ m ih =>
    intro c hm hkm hstop hff j hj
    obtain hk | rfl := Nat.lt_succ_iff_lt_or_eq.mp hkm
    · have hset (i : Nat) : byteAt (c.setIfInBounds m 0#8) i = if i = m then 0#8 else byteAt c i :=
        byteAt_setIfInBounds c m i 0#8 (by omega)
      rw [incFrom_carry m c (hff m hk (by omega))]
      obtain hj | rfl := Nat.lt_succ_iff_lt_or_eq.mp hj
      · have hbelow (i : Nat) (hi : i < m) : byteAt (c.setIfInBounds m 0#8) i = byteAt c i := by
          rw [hset, if_neg (by omega)]
        rw [ih _ (by omega) hk (by rwa [hbelow k hk]) (fun i hki hi => by rw [hbelow i hi, hff i hki (by omega)]) j hj,
          hbelow j hj, hbelow k hk]
      · rw [byteAt_incFrom_ge j _ j (by omega) (Nat.le_refl j), hset, if_pos rfl, if_neg (by omega), if_neg (by omega)]
    · rw [incFrom_stop k c hstop, byteAt_setIfInBounds c k j _ (by omega)]
      obtain hj | rfl := Nat.lt_succ_iff_lt_or_eq.mp hj
      · rw [if_neg hj.ne, if_pos hj]
      · rw [if_pos rfl, if_neg (Nat.lt_irrefl _), if_pos rfl]

/-- Past the largest value the counter is zero. -/
theorem inc128_of_ff (c : Block) (h : ∀ j < 16, byteAt c j = 0xff#8) : inc128 c = zeroBlock := by
  apply val128_inj
  rw [val128_inc128, val128_of_ff c h]
  decide

/-- Settles O6: the loop's bytes, and its value. -/
theorem inc128ByteFormAndValueForm : Obligations.Inc128ByteFormAndValueForm :=
  fun c => ⟨fun k hk => byteAt_incFrom k 16 c (Nat.le_refl 16) hk, inc128_of_ff c, val128_inc128 c⟩

/-! ### The sum -/

/-- `add128` adds to the counter's value (R82). -/
theorem val128_add128 (c : Block) (n : Nat) : val128 (add128 c n) = (val128 c + n) % 2 ^ 128 := by
  rw [val128_eq_words, val128_eq_words c, be64_highBytes_add128, be64_lowBytes_add128]
  omega

/-- Settles O7: the words and the value of the sum; a carry of 1 takes `2^64` off the low word, which is more than `n`. -/
theorem add128WordFormAndValueForm : Obligations.Add128WordFormAndValueForm := by
  intro c n hn
  have hl := be64_lt (lowBytes c)
  have hlow := be64_lowBytes_add128 c n
  exact ⟨hlow, be64_highBytes_add128 c n, by omega, by omega, by omega, val128_add128 c n⟩

/-- The increment/add law (R83), of every amount: both add `n` to the value. -/
theorem add128_eq_incTimes (c : Block) (n : Nat) : add128 c n = incTimes n c :=
  val128_inj _ _ ((val128_add128 c n).trans (val128_incTimes n c).symm)

theorem add128_zero (c : Block) : add128 c 0 = c := add128_eq_incTimes c 0

theorem add128_one (c : Block) : add128 c 1 = inc128 c := add128_eq_incTimes c 1

theorem add128_add128 (c : Block) (a b : Nat) : add128 (add128 c a) b = add128 c (a + b) := by
  simp only [add128_eq_incTimes, incTimes_add]

/-- The counter comes round after `2^128` increments. -/
theorem incTimes_period (c : Block) : incTimes (2 ^ 128) c = c := by
  apply val128_inj
  rw [val128_incTimes, Nat.add_mod_right, Nat.mod_eq_of_lt (val128_lt c)]

/-- Settles O8: a sum is repeated increment, and repeated increments add up. -/
theorem addIsRepeatedIncrement : Obligations.AddIsRepeatedIncrement := by
  refine ⟨fun c n _ => add128_eq_incTimes c n, fun c => ⟨add128_zero c, add128_one c⟩,
    fun c a b _ => add128_add128 c a b, fun c a b _ _ => ?_, ?_⟩
  · rw [add128_add128, val128_add128, Nat.add_assoc]
  · rintro c n rfl
    exact incTimes_period c

/-! ### INC and ADD -/

/-- An increment carries out of a low word of all ones. -/
theorem inc128_words_of_low_ff (c : Block) (h : ∀ j, 8 ≤ j → j < 16 → byteAt c j = 0xff#8) :
    be64 (lowBytes (inc128 c)) = 0 ∧ be64 (highBytes (inc128 c)) = (be64 (highBytes c) + 1) % 2 ^ 64 := by
  rw [← add128_one, be64_lowBytes_add128, be64_highBytes_add128, be64_lowBytes_of_ff c h]
  exact ⟨rfl, rfl⟩

/-- Settles O9: INC's arm is its result, and the increment's corner cases. -/
theorem incIncrementsCtrAndNothingElse : Obligations.IncIncrementsCtrAndNothingElse := by
  intro s
  refine ⟨rfl, inc128_of_ff s.ctr, inc128_words_of_low_ff s.ctr, fun h => ?_⟩
  rw [h]
  decide

/-- The largest amount takes one from the low word, and carries unless the low word is 0 (R85). -/
theorem add128_words_of_max (c : Block) :
    be64 (lowBytes (add128 c (2 ^ 64 - 1))) = (be64 (lowBytes c) + (2 ^ 64 - 1)) % 2 ^ 64 ∧
    be64 (highBytes (add128 c (2 ^ 64 - 1))) =
      if 1 ≤ be64 (lowBytes c) then (be64 (highBytes c) + 1) % 2 ^ 64 else be64 (highBytes c) := by
  refine ⟨be64_lowBytes_add128 c _, ?_⟩
  have hl := be64_lt (lowBytes c)
  have hh := be64_lt (highBytes c)
  rw [be64_highBytes_add128]
  split <;> omega

/-- Settles O10: ADD's arm is its result, and the sum's corner cases. -/
theorem addAdvancesCtrAndNothingElse : Obligations.AddAdvancesCtrAndNothingElse := by
  intro s
  refine ⟨rfl, fun h => ?_, fun h => ?_, fun h => ?_, fun hff h => ?_⟩ <;> rw [h]
  · exact add128_zero s.ctr
  · exact add128_one s.ctr
  · exact add128_words_of_max s.ctr
  · apply val128_inj
    rw [val128_add128, val128_of_ff s.ctr hff]
    decide

end Sys2Proof.Machine
end

section
/-! PROOFS. The keystream generator (41_keystream.md R101). -/

namespace Sys2Proof.Machine

/-- With a schedule held GEN does its work. -/
theorem exec_gen_runs (s : State) (h : s.schedV = true) : exec .gen s = .next s.generated.complete :=
  congrArg Host.Outcome.next (if_pos h)

/-- Without a schedule GEN only raises NoSchedule. -/
theorem exec_gen_noSchedule (s : State) (h : s.schedV = false) : exec .gen s = .next (s.raise .noSchedule) :=
  congrArg Host.Outcome.next (if_neg (Bool.eq_false_iff.mp h))

/-- Settles O11: the two cases of GEN's check for a schedule. -/
theorem genWritesKeystreamBlock : Obligations.GenWritesKeystreamBlock :=
  fun s => ⟨exec_gen_runs s, exec_gen_noSchedule s⟩

end Sys2Proof.Machine
end

section
/-! PROOFS. The stream transform (42_transform.md R116 to R125): the bytes XFORM leaves, its state and its port transactions, and
what follows from the closed form R117: self-inverse (R122), dependence on schedule, counter and input alone (R123), splitting
(R124). -/

namespace Sys2Proof.Machine

/-- `XFORM_BODY` on legal buffers leaves the memory of the closed form (R117). -/
theorem xferEnd_transforms (s : State) (sched : Schedule) (h : s.LegalBuffers) :
    s.Transforms sched (s.xferEnd sched).mem := by
  refine ⟨fun p hp => ?_, fun a ha => ?_⟩ <;> rw [xferEnd_read s sched h]
  · rw [if_pos (by omega), Nat.add_sub_cancel_left, keystreamByte]
  · rw [if_neg ha]

/-- An XFORM that runs ends with the memory of its body. -/
theorem State.XformRuns.transforms {s : State} (h : s.XformRuns) :
    s.Transforms s.sched (s.transformed s.sched).complete.mem := by
  obtain ⟨-, hl, -⟩ := h
  exact xferEnd_transforms s s.sched hl

/-- Settles O12: the state XFORM answers when it runs holds the closed form. -/
theorem xformOutputClosedForm : Obligations.XformOutputClosedForm :=
  fun s h => ⟨_, exec_xform_runs s h, h.transforms⟩

/-- Settles O13: the body changes memory, the port and the unspecified registers alone, and leaves KS when there is no
byte to transform. -/
theorem stateAfterXform : Obligations.StateAfterXform := by
  intro s h
  refine ⟨_, exec_xform_runs s h, rfl, ?_, rfl, rfl, ?_, h.transforms, rfl, rfl, fun h0 => if_pos h0⟩
  · simp [State.SameOperands]
  · simp [State.SameSurroundings]

/-- A transform generates once a block, the last perhaps not full (R118). -/
theorem length_encEvents (sched : Schedule) (c : Block) (len : Nat) :
    (encEvents sched c len).length = (len + 15) / 16 := by
  simp [encEvents]

theorem enc_of_mem_encEvents {sched : Schedule} {c : Block} {len : Nat} {e : PortEvent} (h : e ∈ encEvents sched c len) :
    ∃ c', e = .enc sched c' := by
  obtain ⟨k, -, rfl⟩ := List.mem_map.mp h
  exact ⟨_, rfl⟩

/-- Settles O14: the port gains the transform's transactions, and only full chunks increment the working counter. -/
theorem xformGenerationCount : Obligations.XformGenerationCount := by
  intro s h
  refine ⟨_, exec_xform_runs s h, ⟨_, xferEnd_port s s.sched, ?_, length_encEvents _ _ _, fun e => enc_of_mem_encEvents⟩,
    body_wc _ _ _ _ _ s.xferStart⟩
  rw [length_encEvents]
  split <;> omega

/-- With a schedule XFORM of no byte runs, whatever SRC and DST hold (R119). -/
theorem xformRuns_of_len_zero (s : State) (hv : s.schedV = true) (h0 : s.len.toNat = 0) : s.XformRuns := by
  refine ⟨hv, ⟨?_, ?_, .inl h0⟩, fun a h1 h2 => ?_, fun a h1 h2 => ?_⟩
  · have := s.src.isLt; omega
  · have := s.dst.isLt; omega
  · omega
  · omega

/-- Settles O15: XFORM of no byte runs, and its body has neither a chunk nor a tail. -/
theorem zeroLengthXformTouchesNothing : Obligations.ZeroLengthXformTouchesNothing := by
  intro s hv hlen
  have h0 : s.len.toNat = 0 := by simp [hlen]
  refine ⟨_, exec_xform_runs s (xformRuns_of_len_zero s hv h0), rfl, rfl, xferEnd_mem_of_len_zero s s.sched h0, ?_,
    if_pos h0, rfl, hv⟩
  simp [xferEnd_port, h0, encEvents]

/-! ### Self-inverse -/

/-- A second transform with the same schedule, counter and length, from the first one's output, gives the first one's input
back: the same keystream byte is xored in twice. -/
theorem State.Transforms.undo {s t : State} {sched : Schedule} {m m' : Memory} (hs : s.Transforms sched m)
    (ht : t.Transforms sched m') (hmem : t.mem = m) (hsrc : t.src = s.dst) (hlen : t.len = s.len) (hctr : t.ctr = s.ctr)
    (p : Nat) (hp : p < s.len.toNat) : m'.read (t.dst.toNat + p) = s.mem.read (s.src.toNat + p) := by
  rw [ht.1 p (hlen ▸ hp), hmem, hsrc, hctr, hs.1 p hp, BitVec.xor_assoc, BitVec.xor_self, BitVec.xor_zero]

/-- Settles O19: the second XFORM undoes the first on the destination range, and in place neither changes any other byte. -/
theorem xformIsSelfInverse : Obligations.XformIsSelfInverse := by
  refine ⟨fun s h hplace => ?_, fun s c h hc => ?_⟩
  · have hagain : (s.transformed s.sched).complete.XformRuns := h
    refine ⟨_, _, exec_xform_runs s h, exec_xform_runs _ hagain, fun a => ?_⟩
    by_cases ha : s.dst.toNat ≤ a ∧ a < s.dst.toNat + s.len.toNat
    · obtain ⟨p, rfl⟩ := Nat.exists_eq_add_of_le ha.1
      have hundo := h.transforms.undo hagain.transforms rfl hplace rfl rfl p (by omega)
      rwa [hplace] at hundo
    · exact (hagain.transforms.2 a ha).trans (h.transforms.2 a ha)
  · have honward : State.XformRuns { (s.transformed s.sched).complete with src := s.dst, dst := c } := hc
    exact ⟨_, _, exec_xform_runs s h, exec_xform_runs _ honward, h.transforms.undo honward.transforms rfl rfl rfl rfl⟩

/-- Settles O20: the closed form names nothing else. -/
theorem xformOutputDependsOnScheduleCounterInput : Obligations.XformOutputDependsOnScheduleCounterInput := by
  intro s t hs ht hsched hctr hlen hin
  refine ⟨_, _, exec_xform_runs s hs, exec_xform_runs t ht, fun p hp => ?_⟩
  calc (t.xferEnd t.sched).mem.read (t.dst.toNat + p)
      = t.mem.read (t.src.toNat + p) ^^^ byteAt (Config.encryptBlock t.sched (incTimes (p / 16) t.ctr)) (p % 16) :=
        ht.transforms.1 p (hlen ▸ hp)
    _ = s.mem.read (s.src.toNat + p) ^^^ byteAt (Config.encryptBlock s.sched (incTimes (p / 16) s.ctr)) (p % 16) := by
        rw [hin p hp, hsched, hctr]
    _ = (s.xferEnd s.sched).mem.read (s.dst.toNat + p) := (hs.transforms.1 p hp).symm

/-! ### Splitting -/

/-- The buffers of `r` are those of `s` from byte `d` on, or a part of that; nothing is said of the addresses of a part of no
byte. SCHED_V and the addresses the platform admits are the same in both. -/
structure State.IsPart (s : State) (d : Nat) (r : State) : Prop where
  schedV   : r.schedV = s.schedV
  unmapped : r.unmapped = s.unmapped
  fits     : d + r.len.toNat ≤ s.len.toNat
  src      : 0 < r.len.toNat → r.src.toNat = s.src.toNat + d
  dst      : 0 < r.len.toNat → r.dst.toNat = s.dst.toNat + d

theorem State.AdmitsRange.sub {s r : State} {base n base' n' : Nat} (h : s.AdmitsRange base n) (hu : r.unmapped = s.unmapped)
    (hb : base ≤ base') (hn : base' + n' ≤ base + n) : r.AdmitsRange base' n' := by
  intro a h1 h2
  rw [State.memAdmit, hu]
  exact h a (by omega) (by omega)

/-- XFORM runs on a part of buffers on which it runs. -/
theorem State.XformRuns.part {s r : State} {d : Nat} (hs : s.XformRuns) (h : s.IsPart d r) : r.XformRuns := by
  obtain ⟨hv, ⟨hsrc, hdst, happart⟩, hasrc, hadst⟩ := hs
  have hrv := h.schedV.trans hv
  have hfits := h.fits
  obtain h0 | hpos := Nat.eq_zero_or_pos r.len.toNat
  · exact xformRuns_of_len_zero r hrv h0
  · have hrsrc := h.src hpos
    have hrdst := h.dst hpos
    refine ⟨hrv, ⟨by omega, by omega, ?_⟩, hasrc.sub h.unmapped (by omega) (by omega),
      hadst.sub h.unmapped (by omega) (by omega)⟩
    simp only [← BitVec.toNat_inj] at happart ⊢
    omega

/-- The transform of the first `m` blocks. -/
def State.firstBlocks (s : State) (m : Nat) : State := { s with len := BitVec.ofNat Config.lenw (16 * m) }

/-- On the state `first`, the transform of what the first `m` blocks of `s` leave over. -/
def State.restAfter (s : State) (m : Nat) (first : State) : State :=
  { first with
    ctr := incTimes m s.ctr
    src := s.src + BitVec.ofNat Config.aw (16 * m)
    dst := s.dst + BitVec.ofNat Config.aw (16 * m)
    len := s.len - BitVec.ofNat Config.lenw (16 * m) }

theorem firstBlocks_len_toNat (s : State) (m : Nat) (hm : 16 * m ≤ s.len.toNat) :
    (s.firstBlocks m).len.toNat = 16 * m :=
  Nat.mod_eq_of_lt (Nat.lt_of_le_of_lt hm s.len.isLt)

theorem restAfter_len_toNat (s : State) (m : Nat) (first : State) (hm : 16 * m ≤ s.len.toNat) :
    (s.restAfter m first).len.toNat = s.len.toNat - 16 * m := by
  have hfirst : (BitVec.ofNat Config.lenw (16 * m)).toNat = 16 * m := firstBlocks_len_toNat s m hm
  show (s.len - BitVec.ofNat Config.lenw (16 * m)).toNat = _
  rw [BitVec.toNat_sub_of_le (by rw [BitVec.le_def, hfirst]; exact hm), hfirst]

/-- An address moved up by `d` does not wrap while it stays inside the address space. -/
theorem toNat_add_ofNat_of_lt {w : Nat} (x : BitVec w) (d : Nat) (h : x.toNat + d < 2 ^ w) :
    (x + BitVec.ofNat w d).toNat = x.toNat + d := by
  rw [BitVec.toNat_add, BitVec.toNat_ofNat, Nat.add_mod_mod, Nat.mod_eq_of_lt h]

theorem firstBlocks_isPart (s : State) (m : Nat) (hm : 16 * m ≤ s.len.toNat) : s.IsPart 0 (s.firstBlocks m) where
  schedV   := rfl
  unmapped := rfl
  fits     := by rw [firstBlocks_len_toNat s m hm]; omega
  src _    := rfl
  dst _    := rfl

theorem restAfter_isPart (s : State) (m : Nat) (first : State) (hm : 16 * m ≤ s.len.toNat) (hl : s.LegalBuffers)
    (hv : first.schedV = s.schedV) (hu : first.unmapped = s.unmapped) : s.IsPart (16 * m) (s.restAfter m first) where
  schedV   := hv
  unmapped := hu
  fits     := by rw [restAfter_len_toNat s m first hm]; omega
  src h    := by
    rw [restAfter_len_toNat s m first hm] at h
    exact toNat_add_ofNat_of_lt s.src (16 * m) (by have := hl.1; omega)
  dst h    := by
    rw [restAfter_len_toNat s m first hm] at h
    exact toNat_add_ofNat_of_lt s.dst (16 * m) (by have := hl.2.1; omega)

/-- Keystream from the counter advanced by `m` blocks is the keystream from block `m` on (R113). -/
theorem keystreamByte_incTimes (enc : Schedule → Block → Block) (sched : Schedule) (c : Block) (m p : Nat) :
    keystreamByte enc sched (incTimes m c) p = keystreamByte enc sched c (16 * m + p) := by
  rw [keystreamByte, keystreamByte, Nat.mul_add_div (by decide), Nat.mul_add_mod, incTimes_add]

section

variable {s first : State} {sched : Schedule} {m : Nat} {whole second : Memory}
  (hm : 16 * m ≤ s.len.toNat) (hl : s.LegalBuffers) (hfirst : (s.firstBlocks m).Transforms sched first.mem)
include hm hl hfirst

/-- The transform of the first blocks leaves the input of the rest alone. -/
theorem firstBlocks_keeps_input_of_rest (p : Nat) (hp : 16 * m + p < s.len.toNat) :
    first.mem.read (s.src.toNat + (16 * m + p)) = s.mem.read (s.src.toNat + (16 * m + p)) := by
  obtain ⟨-, -, happart⟩ := hl
  rw [← BitVec.toNat_inj] at happart
  refine hfirst.2 _ ?_
  rw [firstBlocks_len_toNat s m hm]
  show ¬ (s.dst.toNat ≤ _ ∧ _ < s.dst.toNat + 16 * m)
  omega

variable (hpart : s.IsPart (16 * m) (s.restAfter m first)) (hsecond : (s.restAfter m first).Transforms sched second)
  (hwhole : s.Transforms sched whole)
include hpart hsecond hwhole

/-- The transform of the rest writes the bytes that the whole transform writes from block `m` on. -/
theorem read_restAfter_eq_whole (p : Nat) (hp : 16 * m + p < s.len.toNat) :
    second.read (s.dst.toNat + (16 * m + p)) = whole.read (s.dst.toNat + (16 * m + p)) := by
  have hlen := restAfter_len_toNat s m first hm
  have hout := hsecond.1 p (by omega)
  rw [hpart.src (by omega), hpart.dst (by omega), Nat.add_assoc, Nat.add_assoc] at hout
  calc second.read (s.dst.toNat + (16 * m + p))
      = first.mem.read (s.src.toNat + (16 * m + p)) ^^^
          keystreamByte Config.encryptBlock sched (incTimes m s.ctr) p := hout
    _ = s.mem.read (s.src.toNat + (16 * m + p)) ^^^ keystreamByte Config.encryptBlock sched s.ctr (16 * m + p) := by
        rw [firstBlocks_keeps_input_of_rest hm hl hfirst p hp, keystreamByte_incTimes]
    _ = whole.read (s.dst.toNat + (16 * m + p)) := (hwhole.1 (16 * m + p) hp).symm

/-- The transform of the first `m` blocks, then that of the rest, leaves the bytes that the whole transform leaves. -/
theorem transforms_firstBlocks_restAfter (a : Nat) : second.read a = whole.read a := by
  have hlen := restAfter_len_toNat s m first hm
  have hflen := firstBlocks_len_toNat s m hm
  by_cases hrest : s.dst.toNat + 16 * m ≤ a ∧ a < s.dst.toNat + s.len.toNat
  · obtain ⟨p, rfl⟩ : ∃ p, a = s.dst.toNat + (16 * m + p) := ⟨a - (s.dst.toNat + 16 * m), by omega⟩
    exact read_restAfter_eq_whole hm hl hfirst hpart hsecond hwhole p (by omega)
  · have hkeep : second.read a = first.mem.read a := hsecond.2 a fun h => by
      have := hpart.dst (by omega)
      omega
    rw [hkeep]
    by_cases hblocks : s.dst.toNat ≤ a ∧ a < s.dst.toNat + 16 * m
    · obtain ⟨p, rfl⟩ := Nat.exists_eq_add_of_le hblocks.1
      exact (hfirst.1 p (by omega)).trans (hwhole.1 p (by omega)).symm
    · exact (hfirst.2 a (by rwa [hflen])).trans (hwhole.2 a (by omega)).symm

end

/-- Settles O21: both parts run, and together they leave the whole's bytes; ADD's sum is repeated increment. -/
theorem xformSplitsAtMultiplesOfSixteen : Obligations.XformSplitsAtMultiplesOfSixteen := by
  intro s m hs hm
  have hl : s.LegalBuffers := hs.2.1
  have hfirst := hs.part (firstBlocks_isPart s m hm)
  have hpart := restAfter_isPart s m ((s.firstBlocks m).transformed s.sched).complete hm hl rfl rfl
  have hrest := hs.part hpart
  refine ⟨_, _, _, exec_xform_runs s hs, exec_xform_runs _ hfirst, exec_xform_runs _ hrest, ?_, fun hlt => ⟨_, rfl, ?_⟩⟩
  · exact transforms_firstBlocks_restAfter hm hl hfirst.transforms hpart hrest.transforms hs.transforms
  · show add128 s.ctr (BitVec.ofNat 64 m).toNat = incTimes m s.ctr
    rw [add128_eq_incTimes, BitVec.toNat_ofNat, Nat.mod_eq_of_lt hlt]

end Sys2Proof.Machine
end

section
/-! PROOFS. The invocation wrapper (43_wrapper.md): what KSETUP answers (R141), what ENCRYPT answers (R142), and what ENCRYPT leaves
when it fails (R143). -/

namespace Sys2Proof.Machine

/-- Settles O23: KSETUP runs, or answers the first error its key check names. -/
theorem ksetupDerivesScheduleOrLosesIt : Obligations.KsetupDerivesScheduleOrLosesIt := by
  refine fun s => ⟨exec_ksetup_runs s, fun hv => ?_, fun hv hr => ?_⟩
  · exact ⟨_, _, exec_ksetup_error s _ (keyError_invalid s hv)⟩
  · exact ⟨_, _, exec_ksetup_error s _ (keyError_range s hv hr)⟩

/-- An ENCRYPT that runs leaves the closed form (R117) under the derived schedule: the record of its key setup is no part of what
the body reads. -/
theorem State.EncryptRuns.transforms {s : State} (h : s.EncryptRuns) :
    s.Transforms s.derivedSchedule
      (State.xferEnd { s with port := s.port ++ [s.setupEvent] } s.derivedSchedule).mem := by
  obtain ⟨-, -, hl, -⟩ := h
  exact xferEnd_transforms { s with port := s.port ++ [s.setupEvent] } s.derivedSchedule hl

/-- A transform after a key setup makes the `BC.SETUP` and then its `BC.ENC` transactions (R168). -/
theorem xferEnd_port_after_setup (s : State) (setup : PortEvent) (sched : Schedule) :
    (State.xferEnd { s with port := s.port ++ [setup] } sched).port =
      s.port ++ setup :: encEvents sched s.ctr s.len.toNat :=
  (xferEnd_port _ sched).trans (List.append_assoc s.port [setup] _)

/-- Settles O24: when ENCRYPT runs it is the transform's body after the key setup, and each error is answered where its check
stands. -/
theorem encryptTransformsUnderDerivedSchedule : Obligations.EncryptTransformsUnderDerivedSchedule := by
  intro s
  refine ⟨fun h => ?_, fun hv => ?_, fun hv hr => ?_, fun hk hl => ?_⟩
  · refine ⟨_, exec_encrypt_runs s h, h.transforms, xferEnd_port_after_setup s s.setupEvent _, rfl, rfl, rfl, rfl, ?_, ?_,
      fun h0 => ⟨?_, ?_⟩⟩
    · simp [State.SameOperands]
    · simp [State.SameSurroundings]
    · exact if_pos h0
    · exact xferEnd_mem_of_len_zero { s with port := s.port ++ [s.setupEvent] } _ h0
  · exact ⟨_, _, exec_encrypt_keyError s _ (keyError_invalid s hv)⟩
  · exact ⟨_, _, exec_encrypt_keyError s _ (keyError_range s hv hr)⟩
  · exact ⟨_, _, exec_encrypt_badBuffer s hk hl⟩

/-- An ENCRYPT that ends with an error has written no byte and at most set the key up (R143). -/
theorem encryptResult_error (s : State) (h : s.encryptResult.err ≠ .ok) :
    s.encryptResult.mem = s.mem ∧ s.encryptResult.ks = s.ks ∧
    (s.encryptResult.port = s.port ∨ s.encryptResult.port = s.port ++ [s.setupEvent]) := by
  obtain ⟨-, hr⟩ | ⟨-, -, hr⟩ | ⟨-, -, hr⟩ | ⟨-, -, hr⟩ := encryptResult_cases s <;> rw [hr] at h ⊢
  · exact ⟨rfl, rfl, .inl rfl⟩
  · exact ⟨rfl, rfl, .inl rfl⟩
  · exact ⟨rfl, rfl, .inr rfl⟩
  · exact absurd rfl h

/-- Settles O25: a failing ENCRYPT has made no transaction or its `BC.SETUP` alone. -/
theorem encryptFailsFast : Obligations.EncryptFailsFast := by
  intro s t ht herr
  obtain rfl := exec_next .encrypt s t ht
  obtain ⟨hmem, hks, hport⟩ := encryptResult_error s herr
  refine ⟨hmem, hks, fun e he => ?_⟩
  obtain hport | hport := hport <;> rw [resultOf, hport] at he
  · simp at he
  · rw [List.drop_left, List.mem_singleton] at he
    exact ⟨_, _, _, he⟩

end Sys2Proof.Machine
end

section
/-! PROOFS. The cipher port (44_cipher_port.md R168): which transactions each command makes, in their order, on success and on each
error. The one fact about the transform's body is `xferEnd_port`: it records the counters in order. -/

namespace Sys2Proof.Machine

/-- GEN makes its one `BC.ENC` when it succeeds. -/
theorem resultOf_gen_port (s : State) :
    ((resultOf .gen s).err = .ok → (resultOf .gen s).port = s.port ++ [.enc s.sched s.ctr]) ∧
    ((resultOf .gen s).err ≠ .ok → (resultOf .gen s).port = s.port) := by
  cases hv : s.schedV <;> simp [resultOf, hv]

/-- XFORM makes the `BC.ENC` transactions of its transform when it succeeds. -/
theorem xformResult_port (s : State) :
    (s.xformResult.err = .ok → s.xformResult.port = s.port ++ encEvents s.sched s.ctr s.len.toNat) ∧
    (s.xformResult.err ≠ .ok → s.xformResult.port = s.port) := by
  obtain ⟨-, hr⟩ | ⟨-, -, hr⟩ | ⟨-, -, hr⟩ := xformResult_cases s <;> rw [hr]
  · exact ⟨nofun, fun _ => rfl⟩
  · exact ⟨nofun, fun _ => rfl⟩
  · exact ⟨fun _ => xferEnd_port s s.sched, fun hne => absurd rfl hne⟩

/-- KSETUP makes its one `BC.SETUP` when it succeeds. -/
theorem ksetupResult_port (s : State) :
    (s.ksetupResult.err = .ok → s.ksetupResult.port = s.port ++ [s.setupEvent]) ∧
    (s.ksetupResult.err ≠ .ok → s.ksetupResult.port = s.port) := by
  obtain ⟨-, hr⟩ | ⟨-, -, hr⟩ | ⟨-, hr⟩ := ksetupResult_cases s <;> rw [hr]
  · exact ⟨nofun, fun _ => rfl⟩
  · exact ⟨nofun, fun _ => rfl⟩
  · exact ⟨fun _ => rfl, fun hne => absurd rfl hne⟩

/-- ENCRYPT without a legal key answers an error and makes no transaction. -/
theorem encryptResult_illegalKey (s : State) (h : ¬ s.LegalKey) :
    s.encryptResult.err ≠ .ok ∧ s.encryptResult.port = s.port := by
  obtain ⟨-, hr⟩ | ⟨-, -, hr⟩ | ⟨hl, -, -⟩ | ⟨hl, -, -⟩ := encryptResult_cases s
  · rw [hr]; exact ⟨nofun, rfl⟩
  · rw [hr]; exact ⟨nofun, rfl⟩
  · exact absurd hl h
  · exact absurd hl h

/-- ENCRYPT with a legal key makes its `BC.SETUP`, and after it the transform's `BC.ENC` transactions when it succeeds, none when
the buffers are not legal. -/
theorem encryptResult_port_of_legalKey (s : State) (h : s.LegalKey) :
    (s.encryptResult.err = .ok →
      s.encryptResult.port = s.port ++ s.setupEvent :: encEvents s.derivedSchedule s.ctr s.len.toNat) ∧
    (s.encryptResult.err ≠ .ok → s.encryptResult.port = s.port ++ [s.setupEvent]) := by
  obtain ⟨hv, -⟩ | ⟨-, hl, -⟩ | ⟨-, -, hr⟩ | ⟨-, -, hr⟩ := encryptResult_cases s
  · exact absurd h.1 (Bool.eq_false_iff.mp hv)
  · exact absurd h hl
  · rw [hr]; exact ⟨nofun, fun _ => rfl⟩
  · rw [hr]; exact ⟨fun _ => xferEnd_port_after_setup s s.setupEvent _, fun hne => absurd rfl hne⟩

/-- Settles O35: one lemma for each command that uses the port, ENCRYPT's by whether its key is legal. -/
theorem portTransactionsInOrder : Obligations.PortTransactionsInOrder := by
  refine ⟨fun i s t h => ?_, fun s t why hd hr => ?_⟩
  · obtain rfl := exec_next i s t h
    cases i with
    | inc | add => rfl
    | gen => exact resultOf_gen_port s
    | xform => exact xformResult_port s
    | ksetup => exact ksetupResult_port s
    | encrypt =>
      refine ⟨fun hok => ?_, fun hne hl => (encryptResult_port_of_legalKey s hl).2 hne,
        fun hl => (encryptResult_illegalKey s hl).2⟩
      have hl : s.LegalKey := by
        by_contra hl
        exact (encryptResult_illegalKey s hl).1 hok
      exact (encryptResult_port_of_legalKey s hl).1 hok
  · rw [runCommand_illegal s why hd] at hr
    injection hr with hr
    rw [← hr, State.raise_port]

end Sys2Proof.Machine
end

section
/-! PROOFS. The errors (60_exceptions.md): when NoSchedule and InvalidKeyLength are raised (R183, R181) and what an error leaves
(R187). -/

namespace Sys2Proof.Machine

/-- Without a schedule XFORM's check names NoSchedule before it looks at the buffers (R186). -/
theorem xformError_noSchedule (s : State) (h : s.schedV = false) : s.xformError = some .noSchedule :=
  if_neg (Bool.eq_false_iff.mp h)

/-- ENCRYPT gives the schedule up on every way out (R144). -/
theorem encryptResult_schedV (s : State) : s.encryptResult.schedV = false := by
  obtain ⟨-, h⟩ | ⟨-, -, h⟩ | ⟨-, -, h⟩ | ⟨-, -, h⟩ := encryptResult_cases s <;> rw [h] <;> rfl

/-- A KSETUP that fails gives the schedule up (R141). -/
theorem ksetupResult_schedV_of_error (s : State) (herr : s.ksetupResult.err ≠ .ok) : s.ksetupResult.schedV = false := by
  obtain ⟨-, h⟩ | ⟨-, -, h⟩ | ⟨-, h⟩ := ksetupResult_cases s <;> rw [h] at herr ⊢
  · rfl
  · rfl
  · exact absurd rfl herr

/-- Settles O28: GEN and XFORM look for the schedule first, and reset, ENCRYPT and a failing KSETUP leave none. -/
theorem noScheduleWithoutKsetup : Obligations.NoScheduleWithoutKsetup := by
  refine ⟨fun s h => ⟨exec_gen_noSchedule s h, exec_xform_error s _ (xformError_noSchedule s h)⟩, rfl,
    fun s t ht => ?_, fun s t ht herr => ?_⟩
  · obtain rfl := exec_next .encrypt s t ht
    exact encryptResult_schedV s
  · obtain rfl := exec_next .ksetup s t ht
    exact ksetupResult_schedV_of_error s herr

/-- Of key setup's two commands only an unsupported KEYLEN makes the result InvalidKeyLength. -/
theorem unsupported_of_invalidKeyLength (i : Instr) (s : State) (hi : i = .ksetup ∨ i = .encrypt)
    (herr : (resultOf i s).err = .invalidKeyLength) : s.validKeyLen s.keyLen.toNat = false := by
  obtain rfl | rfl := hi <;> simp only [resultOf] at herr
  · obtain ⟨hv, -⟩ | ⟨-, -, h⟩ | ⟨-, h⟩ := ksetupResult_cases s
    · exact hv
    all_goals rw [h] at herr; cases herr
  · obtain ⟨hv, -⟩ | ⟨-, -, h⟩ | ⟨-, -, h⟩ | ⟨-, -, h⟩ := encryptResult_cases s
    · exact hv
    all_goals rw [h] at herr; cases herr

/-- Settles O30: key setup checks KEYLEN before all else, and no other command can raise InvalidKeyLength. -/
theorem invalidKeyLengthExactlyWhenUnsupported : Obligations.InvalidKeyLengthExactlyWhenUnsupported := by
  refine fun s => ⟨fun hv => ?_, fun i t h herr => ?_⟩
  · have hk := keyError_invalid s hv
    exact ⟨⟨_, exec_ksetup_error s _ hk, rfl⟩, _, exec_encrypt_keyError s _ hk, rfl⟩
  · have hi : i = .ksetup ∨ i = .encrypt := by
      have hraises := eachCommandRaisesOnlyItsErrors i s t h
      rw [herr] at hraises
      cases i with
      | ksetup => exact .inl rfl
      | encrypt => exact .inr rfl
      | inc | add | gen | xform => simp at hraises
    obtain rfl := exec_next i s t h
    exact ⟨hi, unsupported_of_invalidKeyLength i s hi herr⟩

/-- The ways a command can fail: GEN and XFORM raise, key setup gives the schedule up and raises, and an ENCRYPT with illegal
buffers has made its `BC.SETUP` before. -/
theorem resultOf_error_cases (i : Instr) (s : State) (herr : (resultOf i s).err ≠ .ok) : ∃ e,
    (i ≠ .ksetup ∧ i ≠ .encrypt ∧ resultOf i s = s.raise e) ∨
    ((i = .ksetup ∨ i = .encrypt) ∧ resultOf i s = s.dropSchedule.raise e) ∨
    (i = .encrypt ∧
      resultOf i s = ({ s with port := s.port ++ [s.setupEvent] } : State).dropSchedule.raise e) := by
  cases i with
  | inc | add => exact absurd rfl herr
  | gen =>
    cases hv : s.schedV with
    | false => exact ⟨.noSchedule, .inl ⟨nofun, nofun, by simp [resultOf, hv]⟩⟩
    | true => simp [resultOf, hv] at herr
  | xform =>
    obtain ⟨-, h⟩ | ⟨-, -, h⟩ | ⟨-, -, h⟩ := xformResult_cases s
    · exact ⟨_, .inl ⟨nofun, nofun, h⟩⟩
    · exact ⟨_, .inl ⟨nofun, nofun, h⟩⟩
    · simp [resultOf, h] at herr
  | ksetup =>
    obtain ⟨-, h⟩ | ⟨-, -, h⟩ | ⟨-, h⟩ := ksetupResult_cases s
    · exact ⟨_, .inr (.inl ⟨.inl rfl, h⟩)⟩
    · exact ⟨_, .inr (.inl ⟨.inl rfl, h⟩)⟩
    · simp [resultOf, h] at herr
  | encrypt =>
    obtain ⟨-, h⟩ | ⟨-, -, h⟩ | ⟨-, -, h⟩ | ⟨-, -, h⟩ := encryptResult_cases s
    · exact ⟨_, .inr (.inl ⟨.inr rfl, h⟩)⟩
    · exact ⟨_, .inr (.inl ⟨.inr rfl, h⟩)⟩
    · exact ⟨_, .inr (.inr ⟨rfl, h⟩)⟩
    · simp [resultOf, h] at herr

/-- The ways the CORE's turn can fail: those of the commands, and an illegal word raises. -/
theorem runCommand_error_cases (s t : State) (h : runCommand s = .next t) (herr : t.err ≠ .ok) : ∃ e,
    (decode s.cmd ≠ .command .ksetup ∧ decode s.cmd ≠ .command .encrypt ∧ t = s.raise e) ∨
    ((decode s.cmd = .command .ksetup ∨ decode s.cmd = .command .encrypt) ∧ t = s.dropSchedule.raise e) ∨
    (decode s.cmd = .command .encrypt ∧
      t = ({ s with port := s.port ++ [s.setupEvent] } : State).dropSchedule.raise e) := by
  obtain ⟨i, hi, hx⟩ | ⟨why, hw, rfl⟩ := runCommand_next s t h
  · obtain rfl := exec_next i s t hx
    simpa only [hi, ne_eq, Decoded.command.injEq] using resultOf_error_cases i s herr
  · exact ⟨_, .inl ⟨by simp [hw], by simp [hw], rfl⟩⟩

/-- The CORE's turn writes no operand register (R71). -/
theorem runCommand_sameOperands (s t : State) (h : runCommand s = .next t) : s.SameOperands t := by
  obtain ⟨i, -, hi⟩ | ⟨-, -, rfl⟩ := runCommand_next s t h
  · rw [exec_next i s t hi]
    exact resultOf_sameOperands i s
  · exact ⟨rfl, rfl, rfl, rfl, rfl, rfl⟩

/-- Settles O29: none of the ways to fail touches more than ERR, BUSY, the schedule and the port. -/
theorem errorLeavesEverythingElse : Obligations.ErrorLeavesEverythingElse := by
  intro s t h herr
  have operands := runCommand_sameOperands s t h
  have surroundings := runCommand_sameSurroundings s t h
  obtain ⟨e, ⟨hk, he, rfl⟩ | ⟨hd, rfl⟩ | ⟨hd, rfl⟩⟩ := runCommand_error_cases s t h herr
  · exact ⟨rfl, rfl, rfl, operands, surroundings, rfl, rfl, rfl, fun hd => (hd.elim hk he).elim,
      fun _ _ => ⟨rfl, rfl, rfl⟩, .inl rfl⟩
  · exact ⟨rfl, rfl, rfl, operands, surroundings, rfl, rfl, rfl, fun _ => rfl,
      fun hk he => (hd.elim hk he).elim, .inl rfl⟩
  · exact ⟨rfl, rfl, rfl, operands, surroundings, rfl, rfl, rfl, fun _ => rfl,
      fun _ he => absurd hd he, .inr ⟨hd, rfl⟩⟩

end Sys2Proof.Machine
end

section
/-! PROOFS. Idle is a resting state (60_exceptions.md R195). -/

namespace Sys2Proof.Machine

/-- With the CORE idle and no host move left, the machine rests. -/
theorem step_rests (s : State) (hb : s.busy = false) (hh : s.host = []) : step s = .next s := by
  simp [step, nextMove, hh, hb]

/-- The one move of the host that sets BUSY is a write of a command word to register 8. -/
theorem hostMoveIdle_sets_busy (m : HostMove) (s t : State) (h : hostMoveIdle m s = .next t) (hb : s.busy = false)
    (ht : t.busy = true) : ∃ w : CmdWord, m = .write 8 (.number w.toNat) := by
  obtain ⟨w, -, hm⟩ | ⟨-, rfl⟩ | hk := hostMoveIdle_cases m s t h
  · exact ⟨w, hm⟩
  · cases ht
  · rw [hk.busy, hb] at ht
    cases ht

/-- Settles O51: of the four ways a step can go, only a move of the host with the CORE idle can set BUSY. -/
theorem onlyCmdWriteStartsWork : Obligations.OnlyCmdWriteStartsWork := by
  refine ⟨step_rests, fun s t h hb ht => ?_⟩
  obtain ⟨-, -, rfl⟩ | ⟨hc, -⟩ | ⟨m, rest, hh, -, hi⟩ | ⟨-, -, -, -, hbusy, -⟩ := step_next s t h
  · simp [hb] at ht
  · simp [State.coreTurn, hb] at hc
  · obtain ⟨w, rfl⟩ := hostMoveIdle_sets_busy m _ t hi hb ht
    exact ⟨w.toNat, rest, hh, w.isLt⟩
  · simp [hb] at hbusy

end Sys2Proof.Machine
end

section
/-! PROOFS. Two COREs over one memory (60_exceptions.md R194, 70_reset_and_hazards.md R215). What a command does to its CORE, and
the byte it leaves at an address, depend on memory only through the ranges it reads and that byte (`resultOf_withMem`), and it
writes no byte outside the ranges it writes (`resultOf_read_unwritten`). -/

namespace Sys2Proof.Machine

/-- The CORE of `s` over the memory `m`. -/
def State.withMem (s : State) (m : Memory) : State := { s with mem := m }

/-- The two memories hold the same byte at each address of the ranges. -/
def SameBytes (ranges : List Region) (m m' : Memory) : Prop :=
  ∀ u ∈ ranges, ∀ x, u.holds x = true → m.read x = m'.read x

/-! ### The checks look at no byte of memory -/

theorem xformError_withMem (s : State) (m : Memory) : (s.withMem m).xformError = s.xformError := rfl

theorem keyError_withMem (s : State) (m : Memory) : (s.withMem m).keyError = s.keyError := rfl

theorem bufferError_withMem (s : State) (m : Memory) : (s.withMem m).bufferError = s.bufferError := rfl

theorem admittedFor_withMem (i : Instr) (s : State) (m : Memory) : admittedFor i (s.withMem m) = admittedFor i s := by
  cases i <;> rfl

/-- A command that answers does so over any memory. -/
theorem exec_withMem (i : Instr) (s t : State) (m : Memory) (h : exec i s = .next t) :
    exec i (s.withMem m) = .next (resultOf i (s.withMem m)) := by
  rw [exec_eq, admittedOr_next] at h ⊢
  exact ⟨(admittedFor_withMem i s m).trans h.1, rfl⟩

/-! ### What a command depends on -/

/-- The key is the bytes of its range. -/
theorem keyBytes_withMem (s : State) (m : Memory) (h : SameBytes [s.keyRange] m s.mem) :
    (s.withMem m).keyBytes = s.keyBytes :=
  Memory.readBytes_congr _ _ _ _ _ fun _ hp =>
    h _ (List.mem_singleton.mpr rfl) _ (decide_eq_true ⟨Nat.le_add_right _ _, Nat.add_lt_add_left hp _⟩)

theorem derivedSchedule_withMem (s : State) (m : Memory) (h : SameBytes [s.keyRange] m s.mem) :
    (s.withMem m).derivedSchedule = s.derivedSchedule := by
  rw [State.derivedSchedule, keyBytes_withMem s m h]
  rfl

theorem setupEvent_withMem (s : State) (m : Memory) (h : SameBytes [s.keyRange] m s.mem) :
    (s.withMem m).setupEvent = s.setupEvent := by
  rw [State.setupEvent, keyBytes_withMem s m h]
  rfl

/-- The byte a transform leaves at an address depends on the byte that was there and on the source. -/
theorem xferEnd_read_withMem (s : State) (sched : Schedule) (m : Memory) (hl : s.LegalBuffers)
    (h : SameBytes [s.srcRange] m s.mem) (x : Nat) (hx : m.read x = s.mem.read x) :
    ((s.withMem m).xferEnd sched).mem.read x = (s.xferEnd sched).mem.read x := by
  obtain ⟨hin', hout'⟩ := xferEnd_transforms (s.withMem m) sched hl
  obtain ⟨hin, hout⟩ := xferEnd_transforms s sched hl
  by_cases hdst : s.dst.toNat ≤ x ∧ x < s.dst.toNat + s.len.toNat
  · obtain ⟨p, rfl⟩ := Nat.exists_eq_add_of_le hdst.1
    have hp : p < s.len.toNat := by omega
    have hsrc : m.read (s.src.toNat + p) = s.mem.read (s.src.toNat + p) :=
      h s.srcRange (List.mem_singleton.mpr rfl) _ (decide_eq_true ⟨Nat.le_add_right _ _, Nat.add_lt_add_left hp _⟩)
    calc ((s.withMem m).xferEnd sched).mem.read (s.dst.toNat + p)
        = m.read (s.src.toNat + p) ^^^ byteAt (Config.encryptBlock sched (incTimes (p / 16) s.ctr)) (p % 16) := hin' p hp
      _ = s.mem.read (s.src.toNat + p) ^^^ byteAt (Config.encryptBlock sched (incTimes (p / 16) s.ctr)) (p % 16) := by
          rw [hsrc]
      _ = (s.xferEnd sched).mem.read (s.dst.toNat + p) := (hin p hp).symm
  · exact (hout' x hdst).trans (hx.trans (hout x hdst).symm)

/-- `XFORM_BODY` over other memory differs in memory alone. -/
theorem transformed_withMem (s : State) (sched : Schedule) (m : Memory) :
    (s.withMem m).transformed sched = (s.transformed sched).withMem ((s.withMem m).xferEnd sched).mem := by
  have hport : ((s.withMem m).xferEnd sched).port = (s.xferEnd sched).port :=
    (xferEnd_port (s.withMem m) sched).trans (xferEnd_port s sched).symm
  rw [State.transformed, hport]
  rfl

/-- A command over other memory with the same bytes in the ranges it reads ends in the same state but for memory, and where the
two memories agreed they agree still. -/
theorem resultOf_withMem (i : Instr) (s : State) (m : Memory) (h : SameBytes (s.readRanges i) m s.mem) :
    ∃ m', resultOf i (s.withMem m) = (resultOf i s).withMem m' ∧
      ∀ x, m.read x = s.mem.read x → m'.read x = (resultOf i s).mem.read x := by
  cases i with
  | inc | add => exact ⟨m, rfl, fun _ hx => hx⟩
  | gen =>
    have hv : (s.withMem m).schedV = s.schedV := rfl
    simp only [resultOf, hv]
    cases s.schedV <;> exact ⟨m, rfl, fun _ hx => hx⟩
  | xform =>
    simp only [resultOf, State.xformResult, xformError_withMem]
    cases he : s.xformError with
    | some e => exact ⟨m, rfl, fun _ hx => hx⟩
    | none =>
      obtain ⟨-, hl⟩ := (xformError_none_iff s).mp he
      exact ⟨_, (congrArg State.complete (transformed_withMem s s.sched m) :), xferEnd_read_withMem s s.sched m hl h⟩
  | ksetup =>
    simp only [resultOf, State.ksetupResult, keyError_withMem, derivedSchedule_withMem s m h, setupEvent_withMem s m h]
    cases s.keyError <;> exact ⟨m, rfl, fun _ hx => hx⟩
  | encrypt =>
    have hkey : SameBytes [s.keyRange] m s.mem := fun u hu => h u (List.mem_append_left [s.srcRange] hu)
    have hsrc : SameBytes [s.srcRange] m s.mem := fun u hu => h u (List.mem_append_right [s.keyRange] hu)
    simp only [resultOf, State.encryptResult, keyError_withMem, bufferError_withMem, derivedSchedule_withMem s m hkey,
      setupEvent_withMem s m hkey]
    cases s.keyError with
    | some e => exact ⟨m, rfl, fun _ hx => hx⟩
    | none =>
      cases hb : s.bufferError with
      | some e => exact ⟨m, rfl, fun _ hx => hx⟩
      | none =>
        exact ⟨_, congrArg (fun t => t.dropSchedule.complete)
            (transformed_withMem { s with port := s.port ++ [s.setupEvent] } s.derivedSchedule m),
          xferEnd_read_withMem { s with port := s.port ++ [s.setupEvent] } s.derivedSchedule m
            ((bufferError_none_iff s).mp hb) hsrc⟩

/-- The CORE ends as it does over its own memory, but for memory. -/
theorem resultOf_withMem_eq (i : Instr) (s : State) (m : Memory) (h : SameBytes (s.readRanges i) m s.mem) :
    resultOf i (s.withMem m) = (resultOf i s).withMem (resultOf i (s.withMem m)).mem := by
  obtain ⟨m', hm, -⟩ := resultOf_withMem i s m h
  rw [hm]
  rfl

/-- The byte a command leaves at an address depends on the byte that was there and on the ranges it reads. -/
theorem resultOf_read_withMem (i : Instr) (s : State) (m : Memory) (h : SameBytes (s.readRanges i) m s.mem) (x : Nat)
    (hx : m.read x = s.mem.read x) : (resultOf i (s.withMem m)).mem.read x = (resultOf i s).mem.read x := by
  obtain ⟨m', hm, hread⟩ := resultOf_withMem i s m h
  rw [hm]
  exact hread x hx

/-- A command leaves every byte outside the ranges it writes as it was (R57). -/
theorem resultOf_read_unwritten (i : Instr) (s : State) (x : Nat) (hx : ∀ u ∈ s.writeRanges i, u.holds x = false) :
    (resultOf i s).mem.read x = s.mem.read x := by
  obtain hm | ⟨rfl, ht⟩ | ⟨rfl, ht⟩ := resultOf_mem_cases i s
  · rw [hm]
  all_goals exact ht.read_outside x (of_decide_eq_false (hx s.dstRange (List.mem_singleton.mpr rfl)))

/-! ### Two commands -/

/-- An address in a range of one list is in no range of a list that shares no byte with it. -/
theorem ShareNoByte.holds_false {us vs : List Region} (h : ShareNoByte us vs) {u : Region} (hu : u ∈ us) {x : Nat}
    (hx : u.holds x = true) : ∀ v ∈ vs, v.holds x = false :=
  fun v hv => Bool.eq_false_iff.mpr fun hvx => h u hu v hv x ⟨hx, hvx⟩

theorem ShareNoByte.symm {us vs : List Region} (h : ShareNoByte us vs) : ShareNoByte vs us :=
  fun v hv u hu x hx => h u hu v hv x hx.symm

/-- A command leaves the ranges another one reads as they were when it writes none of their bytes. -/
theorem sameBytes_after (i j : Instr) (a b : State) (hmem : a.mem = b.mem)
    (h : ShareNoByte (b.writeRanges j) (a.readRanges i ++ a.writeRanges i)) :
    SameBytes (a.readRanges i) (resultOf j b).mem a.mem := by
  intro u hu x hx
  rw [hmem]
  exact resultOf_read_unwritten j b x (h.symm.holds_false (List.mem_append_left _ hu) hx)

/-- At an address the command on `a` does not write, both orders leave what the command on `b` leaves there by itself. -/
theorem orders_agree_unwritten (i j : Instr) (a b : State) (hmem : a.mem = b.mem)
    (h : ShareNoByte (a.writeRanges i) (b.readRanges j ++ b.writeRanges j)) (x : Nat)
    (hx : ∀ u ∈ a.writeRanges i, u.holds x = false) :
    (resultOf i (a.withMem (resultOf j b).mem)).mem.read x = (resultOf j (b.withMem (resultOf i a).mem)).mem.read x := by
  have hsame : (resultOf i a).mem.read x = b.mem.read x := hmem ▸ resultOf_read_unwritten i a x hx
  calc (resultOf i (a.withMem (resultOf j b).mem)).mem.read x
      = (resultOf j b).mem.read x := resultOf_read_unwritten i (a.withMem _) x hx
    _ = (resultOf j (b.withMem (resultOf i a).mem)).mem.read x :=
        (resultOf_read_withMem j b _ (sameBytes_after j i b a hmem.symm h) x hsame).symm

/-- Settles O39: each command reads the same bytes in both orders, so each CORE ends alike; and at each address at most one of
the two writes, so both orders leave the same byte. -/
theorem commandsOfTwoCoresCommute : Obligations.CommandsOfTwoCoresCommute := by
  intro i j a b a₁ b₁ hmem hij hji ha hb
  obtain rfl := exec_next i a a₁ ha
  obtain rfl := exec_next j b b₁ hb
  refine ⟨_, _, exec_withMem i a _ _ ha, exec_withMem j b _ _ hb, fun x => ?_,
    resultOf_withMem_eq i a _ (sameBytes_after i j a b hmem hji),
    resultOf_withMem_eq j b _ (sameBytes_after j i b a hmem.symm hij)⟩
  by_cases hx : ∃ u ∈ a.writeRanges i, u.holds x = true
  · obtain ⟨u, hu, hux⟩ := hx
    have hbx : ∀ v ∈ b.writeRanges j, v.holds x = false :=
      fun v hv => hij.holds_false hu hux v (List.mem_append_right _ hv)
    exact (orders_agree_unwritten j i b a hmem.symm hji x hbx).symm
  · refine orders_agree_unwritten i j a b hmem hij x fun u hu => ?_
    exact Bool.eq_false_iff.mpr fun hux => hx ⟨u, hu, hux⟩

theorem Region.meets_comm (a b : Region) : a.meets b = b.meets a := by
  rw [Bool.eq_iff_iff, Region.meets_iff, Region.meets_iff]
  simp only [and_comm]

/-- XFORM writes no byte of another XFORM's ranges when its destination meets neither source nor destination of the other. -/
theorem shareNoByte_xform (a b : State) (hsrc : a.dstRange.meets b.srcRange = false)
    (hdst : a.dstRange.meets b.dstRange = false) :
    ShareNoByte (a.writeRanges .xform) (b.readRanges .xform ++ b.writeRanges .xform) := by
  intro u hu v hv x hx
  obtain rfl : u = a.dstRange := List.mem_singleton.mp hu
  have hmeets : a.dstRange.meets v = true := (Region.meets_iff _ _).mpr ⟨x, hx⟩
  obtain rfl | rfl : v = b.srcRange ∨ v = b.dstRange := List.mem_pair.mp hv
  · exact absurd hmeets (Bool.eq_false_iff.mp hsrc)
  · exact absurd hmeets (Bool.eq_false_iff.mp hdst)

/-- Settles O38: two XFORMs that run are a case of `commandsOfTwoCoresCommute`. -/
theorem transformsOfTwoCoresCommute : Obligations.TransformsOfTwoCoresCommute := by
  intro a b hmem ha hb hab hdst hba
  obtain ⟨a₂, b₂, ha₂, hb₂, hread, haEq, hbEq⟩ := commandsOfTwoCoresCommute .xform .xform a b _ _ hmem
    (shareNoByte_xform a b hab hdst) (shareNoByte_xform b a hba (Region.meets_comm _ _ ▸ hdst))
    (exec_xform_runs a ha) (exec_xform_runs b hb)
  refine ⟨_, b₂, _, a₂, exec_xform_runs a ha, hb₂, exec_xform_runs b hb, ha₂, fun x => (hread x).symm, ?_, ?_⟩
  · rw [haEq]
  · rw [hbEq]

end Sys2Proof.Machine
end

section
/-! PROOFS. Reset (70_reset_and_hazards.md): the state it leaves (R211), the reset input with the CORE idle (R210) and with a
command in flight (R212). -/

namespace Sys2Proof.Machine

/-- Settles O36: nothing is listed in memory or on the port, and no schedule is held. -/
theorem resetMeetsInvariant : Obligations.ResetMeetsInvariant where
  memory := ⟨⟨.nil, nofun⟩, nofun⟩
  port   := nofun
  sched  := nofun

/-- With the CORE idle, all that raising an error changes is ERR. -/
theorem State.raise_of_idle (s : State) (e : ErrCode) (h : s.busy = false) : s.raise e = { s with err := e } := by
  rw [State.raise, ← h]

/-- With the CORE idle and no schedule held, all that GEN changes is ERR. -/
theorem exec_gen_idle (s : State) (hb : s.busy = false) (hv : s.schedV = false) :
    exec .gen s = .next { s with err := .noSchedule } := by
  rw [exec_gen_noSchedule s hv, s.raise_of_idle _ hb]

/-- With the CORE idle and no schedule held, all that XFORM changes is ERR. -/
theorem exec_xform_idle (s : State) (hb : s.busy = false) (hv : s.schedV = false) :
    exec .xform s = .next { s with err := .noSchedule } := by
  rw [exec_xform_error s _ (xformError_noSchedule s hv), s.raise_of_idle _ hb]

/-- Settles O52: without a schedule GEN and XFORM raise NoSchedule, and the CORE was idle already. -/
theorem resetLeavesIdleStatusZero : Obligations.ResetLeavesIdleStatusZero :=
  ⟨rfl, rfl, rfl, rfl, exec_gen_idle _ rfl rfl, exec_xform_idle _ rfl rfl⟩

/-- After a reset STATUS reads 0, whatever was in flight or held (R211). -/
theorem statusWord_assertReset (s : State) : statusWord s.assertReset = 0 := by
  rw [statusWord, s.assertReset_busy, s.assertReset_schedV, s.assertReset_err]
  rfl

/-- Settles O53: the step is the reset of the state with the move used up. -/
theorem resetInputWhileIdle : Obligations.ResetInputWhileIdle := by
  intro s rest hb hh
  exact ⟨State.assertReset { s with host := rest }, step_idle s .reset rest hb hh, statusWord_assertReset _,
    rfl, rfl, rfl, rfl, rfl, rfl, exec_gen_idle _ rfl rfl⟩

/-- Every byte of an abandoned command's memory is as it was or as the whole command would have left it (R212). -/
theorem landedMemory_read_old_or_final (s : State) (final : Memory) (a : Nat) :
    (landedMemory s final).read a = s.mem.read a ∨ (landedMemory s final).read a = final.read a := by
  obtain hl | ⟨-, hl⟩ := landedMemory_cases s final <;> rw [hl]
  · exact .inl rfl
  · rw [landBytes_read]
    exact (ite_eq_or_eq _ _ _).symm

/-- An abandoned command has changed no byte outside the destination range (R212). -/
theorem landedMemory_read_outside (s : State) (final : Memory) (a : Nat)
    (ha : ¬ (s.dst.toNat ≤ a ∧ a < s.dst.toNat + s.len.toNat)) : (landedMemory s final).read a = s.mem.read a := by
  obtain hl | ⟨-, hl⟩ := landedMemory_cases s final <;> rw [hl]
  rw [landBytes_read, if_neg fun hp => ha ⟨hp.1, hp.2.1⟩]

/-- An abandoned command that is no transform has changed no byte. -/
theorem landedMemory_of_not_transform (s : State) (final : Memory) (hx : decode s.cmd ≠ .command .xform)
    (he : decode s.cmd ≠ .command .encrypt) : landedMemory s final = s.mem :=
  (landedMemory_cases s final).resolve_right fun ⟨hd, _⟩ => hd.elim hx he

/-- A command that ends in a transform leaves the memory of the closed form (R117). -/
theorem EndsInTransform.transforms {i : Instr} {s : State} {first : List PortEvent} {sched : Schedule}
    (h : EndsInTransform i s first sched) : s.Transforms sched (resultOf i s).mem :=
  h.mem ▸ xferEnd_transforms s sched h.legal

/-- The CORE's turn leaves memory alone, or transforms it: XFORM with the schedule held, ENCRYPT with the one derived from its
key. -/
theorem runCommand_mem_eq_or_transforms (s u : State) (h : runCommand s = .next u) :
    u.mem = s.mem ∨
    (decode s.cmd = .command .xform ∧ s.Transforms s.sched u.mem) ∨
    (decode s.cmd = .command .encrypt ∧ s.Transforms s.derivedSchedule u.mem) := by
  obtain ⟨i, hd, hi⟩ | ⟨-, -, rfl⟩ := runCommand_next s u h
  · obtain rfl := exec_next i s u hi
    obtain hm | ⟨rfl, ht⟩ | ⟨rfl, ht⟩ := resultOf_mem_cases i s
    · exact .inl hm
    · exact .inr (.inl ⟨hd, ht.transforms⟩)
    · exact .inr (.inr ⟨hd, ht.transforms⟩)
  · exact .inl rfl

/-- When the whole command would leave memory alone or transform it, each byte of the destination range of the abandoned one is as
it was or has the value of the closed form (R117, R212). -/
theorem landedMemory_read_old_or_transformed (s : State) (final : Memory) (sched : Schedule)
    (hf : final = s.mem ∨ s.Transforms sched final) (p : Nat) (hp : p < s.len.toNat) :
    (landedMemory s final).read (s.dst.toNat + p) = s.mem.read (s.dst.toNat + p) ∨
    (landedMemory s final).read (s.dst.toNat + p) = s.mem.read (s.src.toNat + p) ^^^
      byteAt (Config.encryptBlock sched (incTimes (p / 16) s.ctr)) (p % 16) := by
  obtain hold | hnew := landedMemory_read_old_or_final s final (s.dst.toNat + p)
  · exact .inl hold
  · obtain rfl | ⟨hbytes, -⟩ := hf
    · exact .inl hnew
    · exact .inr (hnew.trans (hbytes p hp))

/-- Settles O54: the reset abandons the command, and what each byte of memory then holds is said by the lemmas about
`landedMemory`. -/
theorem resetDuringCommandAbandonsIt : Obligations.ResetDuringCommandAbandonsIt := by
  intro s u rest hb hh hu
  refine ⟨_, (step_busy s _ rest hb hh).trans (abandon_of_next _ u hu), statusWord_assertReset _, rfl, rfl, rfl,
    landedMemory_read_outside { s with host := rest } u.mem, landedMemory_read_old_or_final { s with host := rest } u.mem,
    landedMemory_of_not_transform { s with host := rest } u.mem, fun p hp => ?_⟩
  have byte {sched} (hf : u.mem = s.mem ∨ s.Transforms sched u.mem) :=
    landedMemory_read_old_or_transformed { s with host := rest } u.mem sched hf p hp
  obtain hm | ⟨hx, ht⟩ | ⟨he, ht⟩ := runCommand_mem_eq_or_transforms _ u hu
  · exact ⟨fun _ => byte (.inl hm), fun _ => byte (.inl hm)⟩
  · exact ⟨fun _ => byte (.inr ht), fun hd => nomatch hx.symm.trans hd⟩
  · exact ⟨fun hd => (nomatch he.symm.trans hd), fun _ => byte (.inr ht)⟩

end Sys2Proof.Machine
end
